-- ==== Sys2Proof/Word.lean ====
section
/-! DEFINITION. The widths of mp-didatico (R9, R11): an 8-bit data byte, a 16-bit instruction word, a
4-bit register nibble. Bit 0 is the least significant bit throughout. -/

namespace Sys2Proof

/-- An 8-bit value: a register, a memory cell, a data byte, a program address (R9, R12). -/
abbrev Byte := BitVec 8

/-- A 16-bit instruction word (R9, R62). -/
abbrev Word := BitVec 16

/-- A 4-bit register nibble of the data byte (R62, R67). -/
abbrev Nibble := BitVec 4

/-- A 5-bit opcode value (R62). -/
abbrev OpcodeValue := BitVec 5

/-- The 4-bit number of a data memory cell (R9, R48). -/
abbrev Cell := BitVec 4

end Sys2Proof
end

