-- ==== Sys2Proof/Config.lean ====
section
/-! DEFINITION. What an implementation of mp-didatico fixes: the named parameters of R10 as plain data, and the
two values the spec leaves entirely to the outside (the switch sample of IN; the header line of an export).

The parameters are carried in `State.params`, which no step and no host operation changes, so a statement over all
states is a statement over all parameter values. This spec's default values are `defaultParams` in Decode.lean. -/

namespace Sys2Proof

/-- `HIGH_BITS` (R10, R69): what decode does with a word whose bits 15:13 are not zero. -/
inductive HighBits
  /-- Decode does not read bits 15:13 (the default, D10). -/
  | ignore
  /-- A word with one of bits 15:13 set is unrecognized. -/
  | unrecognized
  deriving DecidableEq, Repr

/-- `PC_READ` (R10, R21): the value register PC gives as an operand. -/
inductive PcRead
  /-- `(currentPC + 1) mod 256` (the default, D3). -/
  | next
  /-- `currentPC`. -/
  | current
  deriving DecidableEq, Repr

/-- `PC_OVERFLOW` (R10, R29): what advancing the program counter from 0xFF does. -/
inductive PcOverflow
  /-- The counter becomes 0x00 and the machine goes on (the default, D5). -/
  | wrap
  /-- The counter becomes 0x00 and the latch `ovf` is set, which halts the machine. -/
  | halt
  deriving DecidableEq, Repr

/-- `REG_INDEX` (R10, R67): the nibble of each of the eight operand registers. `rs` is the register whose operand
name is IO (R18). -/
structure RegIndex where
  ac : Nibble
  rs : Nibble
  r0 : Nibble
  r1 : Nibble
  r2 : Nibble
  r3 : Nibble
  pc : Nibble
  sp : Nibble
  deriving DecidableEq, Repr

/-- The seven named parameters of R10. -/
structure Params where
  /-- `REG_INDEX`. -/
  regIndex : RegIndex
  /-- `OPC_CALL`. -/
  opcCall : OpcodeValue
  /-- `OPC_RET`. -/
  opcRet : OpcodeValue
  /-- `HIGH_BITS`. -/
  highBits : HighBits
  /-- `PC_READ`. -/
  pcRead : PcRead
  /-- `PC_OVERFLOW`. -/
  pcOverflow : PcOverflow
  /-- `MEM_INIT`: the 16 bytes the data memory holds after reset. -/
  memInit : Vector Byte 16
  deriving DecidableEq, Repr

/-- FREE VALUE (log entry 1). The switch sample an IN reads when the state lists no sample for it, as a function of
how many such samples were taken before. R111: "a free input of each Step, under no law". It has no body:
nothing can be proved of its value. -/
opaque Config.switchSample : Nat → Byte

/-- FREE VALUE (log entry 13). The header lines of an export. R90 says there is "a fixed header"; its text is not in
the spec (N11, I14). -/
opaque Config.exportHeader : List (List Char)

end Sys2Proof
end

