-- ==== Sys2Proof/Syntax.lean ====
section
/-! DEFINITION. The instruction set as syntax: registers (R17), register keys (R68), the 20 mnemonics and their operand
classes (R65, R74), the decoded fields of a word (R69), and `Instr`, one constructor per row of the opcode table. -/

namespace Sys2Proof

/-- The eight registers of the register file (R17). The operand name IO denotes `rs` (R18). -/
inductive Reg
  | ac | rs | r0 | r1 | r2 | r3 | pc | sp
  deriving DecidableEq, Repr

/-- The eight registers, in the operand order of R18: R0, R1, R2, R3, AC, PC, IO, SP. -/
def Reg.all : List Reg := [.r0, .r1, .r2, .r3, .ac, .pc, .rs, .sp]

/-- What a register nibble names after decode (R68): a register, or nothing (absent nibbles and the reserved
nibble 12). -/
inductive Key
  | resolved (r : Reg)
  | unresolved
  deriving DecidableEq, Repr

/-- The five operand classes (R65). -/
inductive OpClass
  /-- Two register nibbles. -/
  | rr
  /-- One register, held in both nibbles on encode. -/
  | r1
  /-- The data byte is an 8-bit immediate. -/
  | imm
  /-- The data byte is a program address. -/
  | addr
  /-- No operand; the data byte is 0x00 on encode. -/
  | noOperand
  deriving DecidableEq, Repr

/-- The 20 mnemonics (R74). `input` is IN, `output` is OUT. -/
inductive Op
  | add | sub | inc | dec | cpl | and | or | xor | rr | rl
  | call | ret | jz | store | load | output | input | set | jmp | mov
  deriving DecidableEq, Repr

/-- The 20 mnemonics in the order of the opcode table. -/
def Op.all : List Op :=
  [.add, .sub, .inc, .dec, .cpl, .and, .or, .xor, .rr, .rl,
   .call, .ret, .jz, .store, .load, .output, .input, .set, .jmp, .mov]

/-- The operand class of each mnemonic (R65, R74). -/
def Op.opClass : Op → OpClass
  | .add => .rr
  | .sub => .rr
  | .inc => .r1
  | .dec => .r1
  | .cpl => .r1
  | .and => .rr
  | .or => .rr
  | .xor => .rr
  | .rr => .r1
  | .rl => .r1
  | .call => .addr
  | .ret => .noOperand
  | .jz => .addr
  | .store => .rr
  | .load => .rr
  | .output => .noOperand
  | .input => .noOperand
  | .set => .imm
  | .jmp => .addr
  | .mov => .rr

/-- The ALU class (R16, R24): the ten instructions that write a destination and the zero flag. -/
def Op.isAlu : Op → Bool
  | .add => true
  | .sub => true
  | .inc => true
  | .dec => true
  | .cpl => true
  | .and => true
  | .or => true
  | .xor => true
  | .rr => true
  | .rl => true
  | .call => false
  | .ret => false
  | .jz => false
  | .store => false
  | .load => false
  | .output => false
  | .input => false
  | .set => false
  | .jmp => false
  | .mov => false

/-- The ten operations of the ALU datapath (R91). -/
inductive AluOp
  | add | sub | inc | dec | cpl | and | or | xor | rr | rl
  deriving DecidableEq, Repr

/-- One instruction: one constructor per row of spec/opcode_table.json. `d` is the dest nibble's key and `s` the src
nibble's key; the nibbles and data bytes an instruction ignores (R73) are not part of it. -/
inductive Instr
  /-- ADD d, s (R93). -/
  | add (d s : Key)
  /-- SUB d, s (R94). -/
  | sub (d s : Key)
  /-- INC d (R95). -/
  | inc (d : Key)
  /-- DEC d (R96). -/
  | dec (d : Key)
  /-- CPL d (R97). -/
  | cpl (d : Key)
  /-- AND d, s (R98). -/
  | and (d s : Key)
  /-- OR d, s (R99). -/
  | or (d s : Key)
  /-- XOR d, s (R100). -/
  | xor (d s : Key)
  /-- RR d, shift right by one (R101). -/
  | rr (d : Key)
  /-- RL d, shift left by one (R102). -/
  | rl (d : Key)
  /-- CALL t (R108). -/
  | call (target : Byte)
  /-- RET (R109). -/
  | ret
  /-- JZ t (R107). -/
  | jz (target : Byte)
  /-- STORE [d], s: the index register is the dest nibble's (R116, C2). -/
  | store (d s : Key)
  /-- LOAD d, [s]: the index register is the src nibble's (R115, C2). -/
  | load (d s : Key)
  /-- OUT (R114). -/
  | output
  /-- IN (R113). -/
  | input
  /-- SET hh, into AC (R104). -/
  | set (imm : Byte)
  /-- JMP t (R106). -/
  | jmp (target : Byte)
  /-- MOV d, s (R103). -/
  | mov (d s : Key)
  deriving DecidableEq, Repr

/-- The mnemonic of an instruction. -/
def Instr.op : Instr → Op
  | .add _ _ => .add
  | .sub _ _ => .sub
  | .inc _ => .inc
  | .dec _ => .dec
  | .cpl _ => .cpl
  | .and _ _ => .and
  | .or _ _ => .or
  | .xor _ _ => .xor
  | .rr _ => .rr
  | .rl _ => .rl
  | .call _ => .call
  | .ret => .ret
  | .jz _ => .jz
  | .store _ _ => .store
  | .load _ _ => .load
  | .output => .output
  | .input => .input
  | .set _ => .set
  | .jmp _ => .jmp
  | .mov _ _ => .mov

/-- The four results `Decode(w) -> {op, dest, src, data}` gives for every word (R69); `op = none` is UNRECOGNIZED. -/
structure Decoded where
  op : Option Op
  dest : Key
  src : Key
  data : Byte
  deriving DecidableEq, Repr

/-- Why a word is no instruction of the table (R75). Neither is an error of the machine: a Step on such a word only
advances the program counter. -/
inductive DecodeReject
  /-- Bits 12:8 hold a value with no row in the opcode map. -/
  | unrecognizedOpcode (value : OpcodeValue)
  /-- Bits 15:13 are not zero under `HIGH_BITS = unrecognized`. -/
  | highBitsSet (bits : BitVec 3)
  deriving DecidableEq, Repr

end Sys2Proof
end

