-- ==== Sys2Proof/WellFormed.lean ====
section
/-! DEFINITION. Which instructions the assembler and the encoder accept (R71, R72, R81) and which parameter values
R10 allows. -/

namespace Sys2Proof

/-- A key that names a register. -/
def Key.isResolved : Key → Bool
  | .resolved _ => true
  | .unresolved => false

/-- An instruction every register operand of which names a register: what assembly text can say (R18, R81). An
instruction with an unresolved operand comes only from a hand-loaded word; it still executes, as a no-op (R76). -/
def Instr.wellFormed : Instr → Bool
  | .add d s => d.isResolved && s.isResolved
  | .sub d s => d.isResolved && s.isResolved
  | .inc d => d.isResolved
  | .dec d => d.isResolved
  | .cpl d => d.isResolved
  | .and d s => d.isResolved && s.isResolved
  | .or d s => d.isResolved && s.isResolved
  | .xor d s => d.isResolved && s.isResolved
  | .rr d => d.isResolved
  | .rl d => d.isResolved
  | .call _ => true
  | .ret => true
  | .jz _ => true
  | .store d s => d.isResolved && s.isResolved
  | .load d s => d.isResolved && s.isResolved
  | .output => true
  | .input => true
  | .set _ => true
  | .jmp _ => true
  | .mov d s => d.isResolved && s.isResolved

/-- R10: an opcode value that the source fixes for one of the other eighteen instructions. -/
def fixedOpcode (v : OpcodeValue) : Bool :=
  decide (v.toNat ≤ 0x09) || decide (0x18 ≤ v.toNat)

/-- The eight nibbles of `REG_INDEX`. -/
def RegIndex.toList (x : RegIndex) : List Nibble :=
  [x.r0, x.r1, x.r2, x.r3, x.ac, x.pc, x.rs, x.sp]

/-- R10's constraints on the parameters: `REG_INDEX` is injective; `OPC_CALL` and `OPC_RET` are distinct and are none
of the eighteen fixed opcode values. -/
abbrev Params.wellFormed (p : Params) : Prop :=
  p.regIndex.toList.Nodup ∧ p.opcCall ≠ p.opcRet ∧
    fixedOpcode p.opcCall = false ∧ fixedOpcode p.opcRet = false

end Sys2Proof
end

