-- ==== Sys2Proof/Decode.lean ====
section
/-! DEFINITION. The instruction word codec (R45, R62 to R77): this spec's default parameter values (R10), field
extraction, the register index and opcode maps, `decode`, and after it `encode` and the canonical words (R72). -/

namespace Sys2Proof

/-! ## Default parameter values -/

/-- `REG_INDEX`'s default (R67, D6): R0=0, R1=1, R2=2, R3=3, AC=4, PC=5, IO(=RS)=6, SP=7. -/
def defaultRegIndex : RegIndex where
  r0 := 0
  r1 := 1
  r2 := 2
  r3 := 3
  ac := 4
  pc := 5
  rs := 6
  sp := 7

/-- The default values of R10. -/
def defaultParams : Params where
  regIndex := defaultRegIndex
  opcCall := 0x16
  opcRet := 0x17
  highBits := .ignore
  pcRead := .next
  pcOverflow := .wrap
  memInit := Vector.replicate 16 0x00

/-! ## The fields of a word (R62) -/

/-- Bits 15:13, which belong to no field. -/
def highField (w : Word) : BitVec 3 := w.extractLsb' 13 3

/-- Bits 12:8, the opcode. -/
def opcodeField (w : Word) : OpcodeValue := w.extractLsb' 8 5

/-- Bits 7:4, the dest nibble. -/
def destField (w : Word) : Nibble := w.extractLsb' 4 4

/-- Bits 3:0, the src nibble. -/
def srcField (w : Word) : Nibble := w.extractLsb' 0 4

/-- Bits 7:0, the data byte (R66: used as given, no sign extension, no scaling). -/
def dataField (w : Word) : Byte := w.extractLsb' 0 8

/-! ## Register nibbles (R67, R68) -/

/-- The nibble `REG_INDEX` gives a register (R67). -/
def regNibble (p : Params) : Reg → Nibble
  | .ac => p.regIndex.ac
  | .rs => p.regIndex.rs
  | .r0 => p.regIndex.r0
  | .r1 => p.regIndex.r1
  | .r2 => p.regIndex.r2
  | .r3 => p.regIndex.r3
  | .pc => p.regIndex.pc
  | .sp => p.regIndex.sp

/-- `key(n)` (R68): the register that `REG_INDEX` maps to the nibble n, or nothing. -/
def keyOf (p : Params) (n : Nibble) : Key :=
  match Reg.all.find? (fun r => regNibble p r == n) with
  | some r => .resolved r
  | none => .unresolved

/-! ## The opcode map (R74) -/

/-- The 5-bit opcode of each mnemonic (R74); CALL's and RET's are parameters (C1, D9). -/
def opcodeOf (p : Params) : Op → OpcodeValue
  | .add => 0x00
  | .sub => 0x01
  | .inc => 0x02
  | .dec => 0x03
  | .cpl => 0x04
  | .and => 0x05
  | .or => 0x06
  | .xor => 0x07
  | .rr => 0x08
  | .rl => 0x09
  | .call => p.opcCall
  | .ret => p.opcRet
  | .jz => 0x18
  | .store => 0x19
  | .load => 0x1A
  | .output => 0x1B
  | .input => 0x1C
  | .set => 0x1D
  | .jmp => 0x1E
  | .mov => 0x1F

/-- `OPCODE_MAP` (R69, R74): the mnemonic of an opcode value, if a row has that value. -/
def opcodeMap (p : Params) (v : OpcodeValue) : Option Op :=
  Op.all.find? (fun o => opcodeOf p o == v)

/-! ## Decode (R69) -/

/-- Whether bits 15:13 make the word unrecognized: only under `HIGH_BITS = unrecognized` (R69, D10). -/
def highBitsReject (p : Params) (w : Word) : Bool :=
  match p.highBits with
  | .ignore => false
  | .unrecognized => highField w != 0#3

/-- `Decode(w) -> {op, dest, src, data}` of R69, for every word. -/
def decodeFields (p : Params) (w : Word) : Decoded where
  op := if highBitsReject p w then none else opcodeMap p (opcodeField w)
  dest := keyOf p (destField w)
  src := keyOf p (srcField w)
  data := dataField w

/-- The instruction of a mnemonic, taking from the decoded keys and data byte those that its class uses (R65, R73). -/
def instrOf (op : Op) (dest src : Key) (data : Byte) : Instr :=
  match op with
  | .add => .add dest src
  | .sub => .sub dest src
  | .inc => .inc dest
  | .dec => .dec dest
  | .cpl => .cpl dest
  | .and => .and dest src
  | .or => .or dest src
  | .xor => .xor dest src
  | .rr => .rr dest
  | .rl => .rl dest
  | .call => .call data
  | .ret => .ret
  | .jz => .jz data
  | .store => .store dest src
  | .load => .load dest src
  | .output => .output
  | .input => .input
  | .set => .set data
  | .jmp => .jmp data
  | .mov => .mov dest src

/-- The instruction a word holds, or by name why it holds none (R69, R75, R77). Total on all words. -/
def decode (p : Params) (w : Word) : Except DecodeReject Instr :=
  match (decodeFields p w).op with
  | some op => .ok (instrOf op (decodeFields p w).dest (decodeFields p w).src (decodeFields p w).data)
  | none =>
    if highBitsReject p w then .error (.highBitsSet (highField w))
    else .error (.unrecognizedOpcode (opcodeField w))

/-! ## Encode (R65, R70) -/

/-- `(opcode << 8) | data` with bits 15:13 zero (R70). -/
def packWord (opcode : OpcodeValue) (data : Byte) : Word := (opcode.setWidth 16 <<< 8) ||| data.setWidth 16

/-- `(d << 4) | s` (R65). -/
def packPair (d s : Nibble) : Byte := (d.setWidth 8 <<< 4) ||| s.setWidth 8

/-- The data byte of class RR (R65): the first operand in bits 7:4, the second in bits 3:0; none where an operand
names no register. -/
def pairByte (p : Params) : Key → Key → Option Byte
  | .resolved d, .resolved s => some (packPair (regNibble p d) (regNibble p s))
  | .resolved _, .unresolved => none
  | .unresolved, _ => none

/-- The data byte of an instruction by its class (R65): class R1 holds its register in both nibbles, class NONE
holds 0x00. -/
def dataByte (p : Params) : Instr → Option Byte
  | .add d s => pairByte p d s
  | .sub d s => pairByte p d s
  | .inc d => pairByte p d d
  | .dec d => pairByte p d d
  | .cpl d => pairByte p d d
  | .and d s => pairByte p d s
  | .or d s => pairByte p d s
  | .xor d s => pairByte p d s
  | .rr d => pairByte p d d
  | .rl d => pairByte p d d
  | .call t => some t
  | .ret => some 0x00
  | .jz t => some t
  | .store d s => pairByte p d s
  | .load d s => pairByte p d s
  | .output => some 0x00
  | .input => some 0x00
  | .set v => some v
  | .jmp t => some t
  | .mov d s => pairByte p d s

/-- `Encode(op, operands)` (R70): the word of an instruction; none where a register operand names no register, for
which there is no word to write (R77, R81). -/
def encode (p : Params) (i : Instr) : Option Word :=
  (dataByte p i).map (packWord (opcodeOf p i.op))

/-- The canonical words (R72): bits 15:13 zero, the opcode in the map, and the data byte one its class can hold. -/
def canonical (p : Params) (w : Word) : Bool :=
  highField w == 0#3 &&
    match opcodeMap p (opcodeField w) with
    | none => false
    | some op =>
      match op.opClass with
      | .rr => (keyOf p (destField w)).isResolved && (keyOf p (srcField w)).isResolved
      | .r1 => (keyOf p (destField w)).isResolved && srcField w == destField w
      | .imm => true
      | .addr => true
      | .noOperand => dataField w == 0#8

/-! ## The host's question -/

/-- The instruction the decoder reads, under the default parameters, from a word whose bits are w (one 16-bit word;
R62: every instruction is one word). Bits from nbits up are 0. -/
def decodeTableWord (nbits w : Nat) : Option Instr :=
  (decode defaultParams (BitVec.ofNat 16 (w % 2 ^ nbits))).toOption

end Sys2Proof
end

