-- ==== Sys2Proof/Machine/State.lean ====
section
/-! DEFINITION. The machine state as plain data (R17 to R40, R46), the transient values of one Step (R39), the stop
reasons, and the state after reset. -/

namespace Sys2Proof.Machine

/-- The data memory (R37): the cells whose byte differs from what an unlisted cell reads as, by rising address. -/
abbrev Memory := List Host.Cell

/-- The program store `Prog` (R34): the program addresses whose word is not 0x0000, by rising address. -/
abbrev ProgramStore := List (Nat × Word)

/-- The state of the core. -/
structure State where
  /-- Register AC (R17). -/
  ac : Byte
  /-- Register RS, operand name IO, presented on `RS_OUT` (R17, R18, R112). -/
  rs : Byte
  /-- Register R0 (R17). -/
  r0 : Byte
  /-- Register R1 (R17). -/
  r1 : Byte
  /-- Register R2 (R17). -/
  r2 : Byte
  /-- Register R3 (R17). -/
  r3 : Byte
  /-- Register PC, which is the program counter (R17, R27, R28). -/
  pc : Byte
  /-- Register SP, the single-slot return-address holder (R17, R40, R108). -/
  sp : Byte
  /-- The zero flag Z (R24). -/
  z : Bool
  /-- The overflow latch `ovf`; it exists only under `PC_OVERFLOW = halt` and is false under `wrap` (R33). -/
  ovf : Bool
  /-- The data memory `M[0..15]` (R37). -/
  mem : Memory
  /-- The program store `Prog[0..255]` (R34). -/
  prog : ProgramStore
  /-- The program length `L`, 0 to 256 (R34). -/
  len : Fin 257
  /-- The MODEL's own field: the implementation's parameters (R10); nothing changes them. -/
  params : Params
  /-- The MODEL's own field: the switch samples the host will supply to the coming INs, the next one first
  (R111, log entry 1). -/
  swInputs : List Byte
  /-- The MODEL's own field: how many samples were drawn from `Config.switchSample` (log entry 1). -/
  swCount : Nat
  deriving DecidableEq, Repr

/-- The transient values of one Step (R39): the machine with the writes made so far, whose `pc` field is still
`currentPC`, and `newPC`, which is present exactly when `pcWritten` is true. -/
structure StepScratch where
  machine : State
  newPC : Option Byte
  deriving DecidableEq, Repr

/-- Why the machine stops with a fault: never. R117: "The core raises no exception, has no cause codes and records no
faulting address or instruction bits", and R48 leaves no data address outside the memory. -/
inductive Fault
  deriving DecidableEq, Repr

/-- Why an instruction is refused. -/
inductive Refusal
  /-- An instruction with no meaning yet, refused in exec's arm. No arm of this model uses it. Safe: the machine
  stops where the hardware goes on. -/
  | notModelled (mnemonic : String)
  deriving DecidableEq, Repr

/-- The state of an implementation with parameters p right after reset, before any program load (R46, R35): every
register 0x00, Z = 0, the data memory at `MEM_INIT`, no program. A machine that was never reset may hold other values
(R137, log entry 6: `State.BeforeFirstLoad`). -/
def State.afterReset (p : Params) : State where
  ac := 0x00
  rs := 0x00
  r0 := 0x00
  r1 := 0x00
  r2 := 0x00
  r3 := 0x00
  pc := 0x00
  sp := 0x00
  z := false
  ovf := false
  mem := []
  prog := []
  len := 0
  params := p
  swInputs := []
  swCount := 0

/-- The machine right after reset, under the default parameters of R10, with no program loaded (R35: L = 0). -/
def State.reset : State := State.afterReset defaultParams

end Sys2Proof.Machine
end

