-- ==== Sys2Proof/Machine/Operands.lean ====
section
/-! DEFINITION. Reading operands: the raw content of a register (R17), the operand read `x[k]` (R21), the cell number
of an index value (R48), and the switch sample (R111). -/

namespace Sys2Proof.Machine

/-- The content of a register, as the snapshot shows it (R17, R44). -/
def State.reg (s : State) : Reg → Byte
  | .ac => s.ac
  | .rs => s.rs
  | .r0 => s.r0
  | .r1 => s.r1
  | .r2 => s.r2
  | .r3 => s.r3
  | .pc => s.pc
  | .sp => s.sp

/-- `nextPC8`, `(currentPC + 1) mod 256` (R15, R21). -/
def State.nextPc (s : State) : Byte := s.pc + 1

/-- The value register PC gives as an operand: `PC_READ` (R21, D3). -/
def State.pcOperand (s : State) : Byte :=
  match s.params.pcRead with
  | .next => s.nextPc
  | .current => s.pc

/-- `x[k]` (R21): the content of register k, but for k = PC, whose value `PC_READ` gives. -/
def State.operand (s : State) (r : Reg) : Byte :=
  if r = .pc then s.pcOperand else s.reg r

/-- `a[3:0]` (R48): the cell an index value reaches; bits 7:4 are ignored. -/
def cellOf (a : Byte) : Cell := a.extractLsb' 0 4

/-- The switch sample `SW` that the next IN reads (R111, R113): the first one the host has supplied; where it has
supplied none, a free value. -/
def State.switchSample (s : State) : Byte :=
  match s.swInputs with
  | v :: _ => v
  | [] => Config.switchSample s.swCount

/-- The state once that sample is taken; nothing in the core latches it (R113). -/
def State.dropSample (s : State) : State :=
  match s.swInputs with
  | _ :: rest => { s with swInputs := rest }
  | [] => { s with swCount := s.swCount + 1 }

end Sys2Proof.Machine
end

