-- ==== Sys2Proof/Machine/Flags.lean ====
section
/-! DEFINITION. The ALU datapath as a pure function and the zero detector, the only flag computation (R26, R91). -/

namespace Sys2Proof.Machine

/-- `alu(op, a, b)` (R91): the 8-bit result of each operation; one-operand operations do not use b. All arithmetic
truncates to 8 bits (R12). -/
def alu (op : AluOp) (a b : Byte) : Byte :=
  match op with
  | .add => a + b
  | .sub => a - b
  | .inc => a + 1
  | .dec => a - 1
  | .cpl => ~~~a
  | .and => a &&& b
  | .or => a ||| b
  | .xor => a ^^^ b
  | .rr => a >>> 1
  | .rl => a <<< 1

/-- The zero detector `z = (result = 0x00)` (R24, R91). -/
def zeroFlag (r : Byte) : Bool := r == 0x00

end Sys2Proof.Machine
end

