-- ==== Sys2Proof/Machine/Ops.lean ====
section
/-! DEFINITION. The named operations over memory, registers and the program counter: stores kept in one canonical
form, `MemRead` and `MemWrite` (R49, R50), instruction fetch (R41), `x[k] <- v` (R22, R30), the advance (R29), halt
(R31), and the beginning and end of a Step's execute part (R39, R41).

The core raises no exception and has no trap entry and no return from one (R117, R123, R124), so there is no operation
that takes an exception: RET is an ordinary jump (Control.lean). -/

namespace Sys2Proof.Machine

/-! ## A sparse store of w-bit values: (address, value) pairs by rising address -/

/-- The value at an address: the listed one, or `dflt`, what the address reads as when unlisted. -/
def sparseRead {w : Nat} (dflt : BitVec w) : List (Nat × BitVec w) → Nat → BitVec w
  | [], _ => dflt
  | c :: rest, a => if c.1 = a then c.2 else sparseRead dflt rest a

/-- The store with every entry of an address removed. -/
def sparseDrop {w : Nat} (a : Nat) : List (Nat × BitVec w) → List (Nat × BitVec w)
  | [] => []
  | c :: rest => if c.1 = a then sparseDrop a rest else c :: sparseDrop a rest

/-- The store with an entry put before the first higher address. -/
def sparseInsert {w : Nat} (a : Nat) (v : BitVec w) : List (Nat × BitVec w) → List (Nat × BitVec w)
  | [] => [(a, v)]
  | c :: rest => if a < c.1 then (a, v) :: c :: rest else c :: sparseInsert a v rest

/-- The store with a value written at an address; writing what the unlisted address reads as removes the entry. -/
def sparseWrite {w : Nat} (dflt : BitVec w) (m : List (Nat × BitVec w)) (a : Nat) (v : BitVec w) :
    List (Nat × BitVec w) :=
  if v = dflt then sparseDrop a m else sparseInsert a v (sparseDrop a m)

/-- The canonical form: addresses strictly rising and below the size, no entry equal to what its address reads as
when unlisted. -/
abbrev sparseWf {w : Nat} (size : Nat) (dflt : Nat → BitVec w) (m : List (Nat × BitVec w)) : Prop :=
  m.Pairwise (fun c c' => c.1 < c'.1) ∧ ∀ c ∈ m, c.1 < size ∧ c.2 ≠ dflt c.1

/-! ## The data memory (R37, R47 to R57) -/

/-- What a cell nothing has written reads as: its `MEM_INIT` byte (R37, R57). -/
def memInitAt (p : Params) (a : Nat) : Byte := p.memInit.toList.getD a 0x00

/-- The canonical form of the data memory: 16 cells (R37), unlisted ones at `MEM_INIT`. -/
abbrev Memory.wf (p : Params) (m : Memory) : Prop := sparseWf 16 (memInitAt p) m

/-- The content of the cell `M[c]`. -/
def State.cell (s : State) (c : Cell) : Byte := sparseRead (memInitAt s.params c.toNat) s.mem c.toNat

/-- `MemRead(a, 1)` (R49): the content of cell `M[a[3:0]]`. -/
def State.memRead (s : State) (a : Byte) : Byte := s.cell (cellOf a)

/-- `MemWrite(a, 1, v)` (R50): cell `M[a[3:0]] <- v`. -/
def State.memWrite (s : State) (a v : Byte) : State :=
  { s with mem := sparseWrite (memInitAt s.params (cellOf a).toNat) s.mem (cellOf a).toNat v }

/-! ## The program store (R34, R41, R47) -/

/-- What a program address that no load has written holds (log entry 3); no Step fetches it (R34). -/
def progInit (_ : Nat) : Word := 0x0000

/-- The canonical form of the program store: 256 words (R34). -/
abbrev ProgramStore.wf (m : ProgramStore) : Prop := sparseWf 256 progInit m

/-- `Prog[a]` (R34). -/
def State.progAt (s : State) (a : Byte) : Word := sparseRead (progInit a.toNat) s.prog a.toNat

/-- The 16-bit fetch `w <- Prog[currentPC]` (R41). -/
def State.fetch (s : State) : Word := s.progAt s.pc

/-- `Prog[i] <- w`: the program store's write, which only a program load makes (R60, R134). -/
def progWrite (m : ProgramStore) (i : Nat) (w : Word) : ProgramStore := sparseWrite (progInit i) m i w

/-! ## Halt (R31) -/

/-- The machine is halted: `pc ≥ L`, or, under `PC_OVERFLOW = halt`, `ovf = 1` (R31, R33). -/
def State.halted (s : State) : Bool :=
  decide (s.len.val ≤ s.pc.toNat) || (s.params.pcOverflow == .halt && s.ovf)

/-! ## Register writes and the end of a Step (R22, R29, R30, R39, R41) -/

/-- The raw update of one register of the file. -/
def State.setReg (s : State) (r : Reg) (v : Byte) : State :=
  match r with
  | .ac => { s with ac := v }
  | .rs => { s with rs := v }
  | .r0 => { s with r0 := v }
  | .r1 => { s with r1 := v }
  | .r2 => { s with r2 := v }
  | .r3 => { s with r3 := v }
  | .pc => { s with pc := v }
  | .sp => { s with sp := v }

/-- Advancing from 0xFF sets `ovf` under `PC_OVERFLOW = halt` and does nothing to it under `wrap` (R29, R33). -/
def State.ovfAfterAdvance (s : State) : Bool :=
  s.ovf || (s.params.pcOverflow == .halt && s.pc == 0xFF)

/-- The advance (R29): `pc <- currentPC + 1`, which from 0xFF gives 0x00. -/
def State.advance (s : State) : State :=
  { s with pc := s.pc + 1, ovf := s.ovfAfterAdvance }

/-- The beginning of the execute part: `pcWritten <- false` (R41). -/
def State.beginStep (s : State) : StepScratch := ⟨s, none⟩

/-- `x[k] <- v` (R22); for k = PC the record of the counter's next value (R30). -/
def StepScratch.write (c : StepScratch) (r : Reg) (v : Byte) : StepScratch :=
  if r = .pc then { c with newPC := some v } else { c with machine := c.machine.setReg r v }

/-- `pc <- target`: the write of the program counter through key PC (R14, R30). -/
def StepScratch.jump (c : StepScratch) (target : Byte) : StepScratch := c.write .pc target

/-- `Z <- b` (R24). -/
def StepScratch.writeZ (c : StepScratch) (b : Bool) : StepScratch :=
  { c with machine := { c.machine with z := b } }

/-- `MemWrite(a, 1, v)` in the execute part (R50). -/
def StepScratch.memWrite (c : StepScratch) (a v : Byte) : StepScratch :=
  { c with machine := c.machine.memWrite a v }

/-- The end of a Step (R41): `pc <- newPC` where the instruction wrote the counter, else the advance. -/
def StepScratch.finish (c : StepScratch) : State :=
  match c.newPC with
  | some v => { c.machine with pc := v }
  | none => c.machine.advance

/-- The Step of an unrecognized opcode, and of an instruction a needed nibble of which is unresolved (R75, R76): it
changes nothing besides the counter's advance. -/
def noOp (s : State) : State := s.beginStep.finish

/-- A Step that writes one register, `x[d] <- v`, and nothing else. -/
def writeRegStep (s : State) (d : Reg) (v : Byte) : State := (s.beginStep.write d v).finish

/-- A Step that writes only the program counter. -/
def jumpStep (s : State) (target : Byte) : State := (s.beginStep.jump target).finish

end Sys2Proof.Machine
end

