-- ==== Sys2Proof/Machine/Alu.lean ====
section
/-! DEFINITION. The ALU family (40_alu.md, R91 to R102): ADD SUB INC DEC CPL AND OR XOR RR RL. -/

namespace Sys2Proof.Machine

/-- The write-back of an ALU instruction (R92): `x[d] <- r; Z <- (r = 0x00)`. -/
def aluWriteBack (s : State) (d : Reg) (r : Byte) : State :=
  ((s.beginStep.write d r).writeZ (zeroFlag r)).finish

/-- R92 for the two-operand operations: both operands are read before the result is written; an unresolved d or s
makes the instruction a no-op (R76). -/
def aluPair (op : AluOp) (d s : Key) (σ : State) : Host.Outcome State Fault Refusal :=
  match d, s with
  | .resolved dst, .resolved src => .next (aluWriteBack σ dst (alu op (σ.operand dst) (σ.operand src)))
  | .resolved _, .unresolved => .next (noOp σ)
  | .unresolved, _ => .next (noOp σ)

/-- R92 for the one-operand operations: the unused operand is 0x00; an unresolved d makes the instruction a no-op. -/
def aluSingle (op : AluOp) (d : Key) (σ : State) : Host.Outcome State Fault Refusal :=
  match d with
  | .resolved dst => .next (aluWriteBack σ dst (alu op (σ.operand dst) 0x00))
  | .unresolved => .next (noOp σ)

/-- ADD (R93): `r <- (x[d] + x[s]) mod 256`. -/
def execAdd (d s : Key) (σ : State) : Host.Outcome State Fault Refusal := aluPair .add d s σ

/-- SUB (R94, D11): `r <- (x[d] - x[s] + 256) mod 256`. -/
def execSub (d s : Key) (σ : State) : Host.Outcome State Fault Refusal := aluPair .sub d s σ

/-- INC (R95): `r <- (x[d] + 1) mod 256`. -/
def execInc (d : Key) (σ : State) : Host.Outcome State Fault Refusal := aluSingle .inc d σ

/-- DEC (R96): `r <- (x[d] - 1 + 256) mod 256`. -/
def execDec (d : Key) (σ : State) : Host.Outcome State Fault Refusal := aluSingle .dec d σ

/-- CPL (R97, D12): `r <- 0xFF ^ x[d]`. -/
def execCpl (d : Key) (σ : State) : Host.Outcome State Fault Refusal := aluSingle .cpl d σ

/-- AND (R98): `r <- x[d] & x[s]`. -/
def execAnd (d s : Key) (σ : State) : Host.Outcome State Fault Refusal := aluPair .and d s σ

/-- OR (R99): `r <- x[d] | x[s]`. -/
def execOr (d s : Key) (σ : State) : Host.Outcome State Fault Refusal := aluPair .or d s σ

/-- XOR (R100): `r <- x[d] ^ x[s]`. -/
def execXor (d s : Key) (σ : State) : Host.Outcome State Fault Refusal := aluPair .xor d s σ

/-- RR (R101, D13): `r <- x[d] >> 1`, a zero enters bit 7. -/
def execRr (d : Key) (σ : State) : Host.Outcome State Fault Refusal := aluSingle .rr d σ

/-- RL (R102, D13): `r <- (x[d] << 1) & 0xFF`, a zero enters bit 0. -/
def execRl (d : Key) (σ : State) : Host.Outcome State Fault Refusal := aluSingle .rl d σ

end Sys2Proof.Machine
end

