-- ==== Sys2Proof/Machine/Control.lean ====
section
/-! DEFINITION. Control transfer (42_control.md): JMP, JZ, CALL and RET. A target is an absolute program address with no
alignment requirement; a target at or beyond L halts at the next Step (R105). -/

namespace Sys2Proof.Machine

/-- JMP (R106): `pc <- data`. -/
def execJmp (target : Byte) (σ : State) : Host.Outcome State Fault Refusal := .next (jumpStep σ target)

/-- JZ (R107): taken when Z = 1, else falls through. -/
def execJz (target : Byte) (σ : State) : Host.Outcome State Fault Refusal :=
  if σ.z then .next (jumpStep σ target) else .next (noOp σ)

/-- CALL (R108): `x[SP] <- (currentPC + 1) mod 256; pc <- data`. The return address does not depend on `PC_READ`. -/
def execCall (target : Byte) (σ : State) : Host.Outcome State Fault Refusal :=
  .next ((σ.beginStep.write .sp σ.nextPc).jump target).finish

/-- RET (R109): `pc <- x[SP]`; SP is not changed. -/
def execRet (σ : State) : Host.Outcome State Fault Refusal := .next (jumpStep σ (σ.operand .sp))

end Sys2Proof.Machine
end

