-- ==== Sys2Proof/Machine/Io.lean ====
section
/-! DEFINITION. Input and output (43_io.md): IN and OUT. -/

namespace Sys2Proof.Machine

/-- IN (R113): `x[AC] <- SW`, the sample of this Step, which is then gone; Z is unchanged. -/
def execInput (σ : State) : Host.Outcome State Fault Refusal :=
  .next (writeRegStep σ.dropSample .ac σ.switchSample)

/-- OUT (R114): `x[RS] <- x[AC]`; Z is unchanged. -/
def execOutput (σ : State) : Host.Outcome State Fault Refusal := .next (writeRegStep σ .rs (σ.operand .ac))

end Sys2Proof.Machine
end

