-- ==== Sys2Proof/Machine/MemAccess.lean ====
section
/-! DEFINITION. Memory access (44_memory_access.md): LOAD and STORE, register indirect through the low four bits of the
index register (R48). -/

namespace Sys2Proof.Machine

/-- LOAD (R115): `x[d] <- MemRead(x[s], 1)`: the index register is the src nibble's (C2, D27). -/
def execLoad (d s : Key) (σ : State) : Host.Outcome State Fault Refusal :=
  match d, s with
  | .resolved dst, .resolved src => .next (writeRegStep σ dst (σ.memRead (σ.operand src)))
  | .resolved _, .unresolved => .next (noOp σ)
  | .unresolved, _ => .next (noOp σ)

/-- STORE (R116): `MemWrite(x[d], 1, x[s])`: the index register is the dest nibble's (C2, D27). -/
def execStore (d s : Key) (σ : State) : Host.Outcome State Fault Refusal :=
  match d, s with
  | .resolved dst, .resolved src => .next (σ.beginStep.memWrite (σ.operand dst) (σ.operand src)).finish
  | .resolved _, .unresolved => .next (noOp σ)
  | .unresolved, _ => .next (noOp σ)

end Sys2Proof.Machine
end

