-- ==== Sys2Proof/Machine/Move.lean ====
section
/-! DEFINITION. Register moves (41_move.md): MOV and SET. -/

namespace Sys2Proof.Machine

/-- MOV (R103): `x[d] <- x[s]`; Z is unchanged; an unresolved d or s makes it a no-op (R76). -/
def execMov (d s : Key) (σ : State) : Host.Outcome State Fault Refusal :=
  match d, s with
  | .resolved dst, .resolved src => .next (writeRegStep σ dst (σ.operand src))
  | .resolved _, .unresolved => .next (noOp σ)
  | .unresolved, _ => .next (noOp σ)

/-- SET (R104): `x[AC] <- data`; Z is unchanged. -/
def execSet (imm : Byte) (σ : State) : Host.Outcome State Fault Refusal := .next (writeRegStep σ .ac imm)

end Sys2Proof.Machine
end

