-- ==== Sys2Proof/Machine/Dispatch.lean ====
section
/-! DEFINITION. The dispatch: one arm per instruction, each one direct call of its meaning. -/

namespace Sys2Proof.Machine

def exec (i : Instr) (s : State) : Host.Outcome State Fault Refusal :=
  match i with
  | .add d e => Sys2Proof.Machine.execAdd d e s
  | .sub d e => Sys2Proof.Machine.execSub d e s
  | .inc d => Sys2Proof.Machine.execInc d s
  | .dec d => Sys2Proof.Machine.execDec d s
  | .cpl d => Sys2Proof.Machine.execCpl d s
  | .and d e => Sys2Proof.Machine.execAnd d e s
  | .or d e => Sys2Proof.Machine.execOr d e s
  | .xor d e => Sys2Proof.Machine.execXor d e s
  | .rr d => Sys2Proof.Machine.execRr d s
  | .rl d => Sys2Proof.Machine.execRl d s
  | .call t => Sys2Proof.Machine.execCall t s
  | .ret => Sys2Proof.Machine.execRet s
  | .jz t => Sys2Proof.Machine.execJz t s
  | .store d e => Sys2Proof.Machine.execStore d e s
  | .load d e => Sys2Proof.Machine.execLoad d e s
  | .output => Sys2Proof.Machine.execOutput s
  | .input => Sys2Proof.Machine.execInput s
  | .set t => Sys2Proof.Machine.execSet t s
  | .jmp t => Sys2Proof.Machine.execJmp t s
  | .mov d e => Sys2Proof.Machine.execMov d e s

end Sys2Proof.Machine
end

