-- ==== Sys2Proof/Machine/Step.lean ====
section
/-! DEFINITION. One Step of the fetch/decode/execute state machine (R41), and how a word is placed where the next Step
fetches. -/

namespace Sys2Proof.Machine

/-- One Step (R41): nothing on a halted machine (R31); else the word at `pc` is fetched and decoded, and either its
instruction executes or, where it is unrecognized, only the counter advances (R75). -/
def step (s : State) : Host.Outcome State Fault Refusal :=
  if s.halted then .next s
  else
    match decode s.params s.fetch with
    | .ok i => exec i s
    | .error _ => .next (noOp s)

/-- The state with one word placed at `pc` in the program store, the program made long enough to hold it and the
machine not halted by `ovf`, so that the next Step fetches and runs that word. It stands for the host's program load
(R134, log entry 2). -/
def State.withFetchWord (s : State) (nbits w : Nat) : State :=
  { s with
    prog := progWrite s.prog s.pc.toNat (BitVec.ofNat 16 (w % 2 ^ nbits))
    len := ⟨max s.len.val (s.pc.toNat + 1), by have := s.len.isLt; have := s.pc.isLt; omega⟩
    ovf := false }

end Sys2Proof.Machine
end

