-- ==== Sys2Proof/Machine/HostOps.lean ====
section
/-! DEFINITION. The block's transaction-level interface (R44, R139): the operations RESET and LOAD beside STEP, the
switch input, and the outputs RS_OUT, HALTED and SNAPSHOT. Operations never overlap (R44). -/

namespace Sys2Proof.Machine

/-- `RESET` (R132): every register 0x00, Z = 0, the data memory at `MEM_INIT`, `ovf` cleared; `Prog` and `L` are left
unchanged. The switch samples to come are the host's and stay. -/
def State.resetOp (s : State) : State :=
  { State.afterReset s.params with
    prog := s.prog
    len := s.len
    swInputs := s.swInputs
    swCount := s.swCount }

/-- `Prog[i] <- words[0]`, `Prog[i + 1] <- words[1]`, … (R134). -/
def progWriteFrom (i : Nat) : List Word → ProgramStore → ProgramStore
  | [], m => m
  | w :: rest, m => progWriteFrom (i + 1) rest (progWrite m i w)

/-- `LOAD(words, n)` (R134): installs n ≤ 256 words from program address 0, `L <- n`, `pc <- 0x00`, `ovf <- 0`, and
nothing else; a load of more than 256 words changes nothing. -/
def State.load (s : State) (words : List Word) : State :=
  if h : words.length ≤ 256 then
    { s with
      prog := progWriteFrom 0 words s.prog
      len := ⟨words.length, by omega⟩
      pc := 0x00
      ovf := false }
  else s

/-- The host presents the samples of the coming INs (R111, R139: "the SW sample for this Step"). -/
def State.supplySwitches (s : State) (samples : List Byte) : State := { s with swInputs := samples }

/-- `Step(SW)` as R41 writes it: one Step with the sample SW presented to it, which an IN reads and which is gone
afterwards either way (R113); the samples the state lists for later INs are as before. -/
def stepWith (sw : Byte) (s : State) : Host.Outcome State Fault Refusal :=
  match step (s.supplySwitches [sw]) with
  | .next t => .next (t.supplySwitches s.swInputs)
  | .fault r => .fault r
  | .refused r => .refused r

/-- The output `RS_OUT` (R44, R112). -/
def State.rsOut (s : State) : Byte := s.rs

/-- The `SNAPSHOT` output (R44, R130): all eight registers, Z, `M[0..15]`, `Prog[0..L-1]` (whose length is `L`)
and `pc` (which is register PC), with `HALTED` (R139). -/
structure Snapshot where
  ac : Byte
  rs : Byte
  r0 : Byte
  r1 : Byte
  r2 : Byte
  r3 : Byte
  pc : Byte
  sp : Byte
  z : Bool
  halted : Bool
  mem : List Byte
  prog : List Word
  deriving DecidableEq, Repr

/-- What the host observes between operations; observing changes nothing (R139). -/
def State.snapshot (s : State) : Snapshot where
  ac := s.ac
  rs := s.rs
  r0 := s.r0
  r1 := s.r1
  r2 := s.r2
  r3 := s.r3
  pc := s.pc
  sp := s.sp
  z := s.z
  halted := s.halted
  mem := (List.range 16).map (fun a => s.cell (BitVec.ofNat 4 a))
  prog := (List.range s.len.val).map (fun a => s.progAt (BitVec.ofNat 8 a))

/-- The host's run mode for at most k ticks (R138): a Step a tick, stopping of itself where the machine is halted, which
is the end of the run (R140). -/
def runMode : Nat → State → Host.Outcome State Fault Refusal
  | 0, s => .next s
  | k + 1, s =>
    if s.halted then .next s
    else
      match step s with
      | .next t => runMode k t
      | .fault r => .fault r
      | .refused r => .refused r

/-- What the host can do to the block between Steps, and the Step itself (R44, R139). -/
inductive HostOp
  | reset
  | load (words : List Word)
  | supplySwitches (samples : List Byte)
  | stepWith (sw : Byte)
  | step
  deriving DecidableEq, Repr

/-- One operation of the host on the block. -/
def applyOp (op : HostOp) (s : State) : Host.Outcome State Fault Refusal :=
  match op with
  | .reset => .next s.resetOp
  | .load words => .next (s.load words)
  | .supplySwitches samples => .next (s.supplySwitches samples)
  | .stepWith sw => stepWith sw s
  | .step => step s

end Sys2Proof.Machine
end

