-- ==== Sys2Proof/Machine/Assembler.lean ====
section
/-! DEFINITION. The software around the block whose syntax and error kinds the spec gives (R7): the assembler (R78 to
R87), its errors and their order (R119, R120), the disassembler (R88), hex-load (R89) and export (R90). Text is a list
of characters; a source is its list of lines.

None of this is a part of a Step: it says which programs LOAD can be given. -/

namespace Sys2Proof.Machine

/-! ## Text -/

/-- A piece of text. -/
abbrev Text := List Char

/-- The pieces of a text between separator characters; two separators in a row have an empty piece between them. -/
def splitText (sep : Char → Bool) : Text → List Text
  | [] => [[]]
  | c :: rest =>
    if sep c then [] :: splitText sep rest
    else
      match splitText sep rest with
      | [] => [[c]]
      | piece :: pieces => (c :: piece) :: pieces

/-- The lines of a source text (R78). -/
def sourceLines (t : Text) : List Text := splitText (· == '\n') t

/-- A text without the white space at its two ends. -/
def trim (t : Text) : Text :=
  ((t.dropWhile Char.isWhitespace).reverse.dropWhile Char.isWhitespace).reverse

/-- `;` starts a comment to the end of the line (R78). -/
def stripComment (t : Text) : Text := t.takeWhile (· != ';')

/-- Uppercased text: the source is case-insensitive (R79). DESIGN CHOICE (log entry 12): only a to z have an uppercase
form, so two labels that differ in the case of another letter are two labels. -/
def upper (t : Text) : Text := t.map Char.toUpper

/-- The tokens of an instruction line (R80): brackets removed, uppercased, split on white space and commas. DESIGN CHOICE
(log entry 12): an empty piece between, before or after separators is no token. -/
def tokens (t : Text) : List Text :=
  (splitText (fun c => c.isWhitespace || c == ',') (upper (t.filter (fun c => c != '[' && c != ']')))).filter
    (fun piece => !piece.isEmpty)

/-! ## Hex -/

/-- The sixteen hex digits in the order of their values, as the spec prints them (R63). -/
def hexDigits : Text := "0123456789ABCDEF".toList

/-- The value of a hex digit: its place among the sixteen, in either case (R79, R89). -/
def hexDigit (c : Char) : Option Nat := hexDigits.findIdx? (· == c.toUpper)

/-- The value of a run of hex digits after a value already read, most significant digit first (R52). -/
def hexValueFrom (acc : Nat) : Text → Option Nat
  | [] => some acc
  | c :: rest =>
    match hexDigit c with
    | some d => hexValueFrom (16 * acc + d) rest
    | none => none

/-- A hex literal of one or two digits (R84). -/
def hexLiteral (t : Text) : Option Byte :=
  if t.length = 1 ∨ t.length = 2 then (hexValueFrom 0 t).map (BitVec.ofNat 8) else none

/-- The uppercase hex digit of a value below 16 (R63). -/
def hexChar (n : Nat) : Char := hexDigits.getD n '0'

/-- A byte as two hex digits. -/
def hexByte (v : Byte) : Text := [hexChar (v.toNat / 16), hexChar (v.toNat % 16)]

/-- A word as four uppercase hex digits, most significant first (R63). -/
def hexWord (w : Word) : Text := hexByte (w.extractLsb' 8 8) ++ hexByte (w.extractLsb' 0 8)

/-! ## Names -/

/-- The assembly spelling of a mnemonic (R74). -/
def opText : Op → Text
  | .add => "ADD".toList
  | .sub => "SUB".toList
  | .inc => "INC".toList
  | .dec => "DEC".toList
  | .cpl => "CPL".toList
  | .and => "AND".toList
  | .or => "OR".toList
  | .xor => "XOR".toList
  | .rr => "RR".toList
  | .rl => "RL".toList
  | .call => "CALL".toList
  | .ret => "RET".toList
  | .jz => "JZ".toList
  | .store => "STORE".toList
  | .load => "LOAD".toList
  | .output => "OUT".toList
  | .input => "IN".toList
  | .set => "SET".toList
  | .jmp => "JMP".toList
  | .mov => "MOV".toList

/-- The operand name of a register (R18, R81): RS is spelled IO. -/
def regText : Reg → Text
  | .ac => "AC".toList
  | .rs => "IO".toList
  | .r0 => "R0".toList
  | .r1 => "R1".toList
  | .r2 => "R2".toList
  | .r3 => "R3".toList
  | .pc => "PC".toList
  | .sp => "SP".toList

/-- The mnemonic a token spells. -/
def opOfText (t : Text) : Option Op := Op.all.find? (fun o => opText o == t)

/-- The register a token names; the reserved names ROM, RAM and NONE name none (R77). -/
def regOfText (t : Text) : Option Reg := Reg.all.find? (fun r => regText r == t)

/-! ## The assembler -/

/-- The load-time error kinds (R119). -/
inductive LoadErrorKind
  | unknownMnemonic
  | invalidOperand
  | duplicateLabel
  | romOverflow
  | invalidHexWord
  deriving DecidableEq, Repr

/-- An error and the source line it names, counted from 1 (R85, R119). -/
structure LoadError where
  kind : LoadErrorKind
  line : Nat
  deriving DecidableEq, Repr

/-- What one source line is (R78). -/
inductive SourceLine
  | blank
  | label (name : Text)
  | instruction (toks : List Text)
  deriving DecidableEq, Repr

/-- Labels and their program addresses. -/
abbrev LabelTable := List (Text × Nat)

/-- An instruction line kept by pass 1: its source line number and its tokens. -/
abbrev CodeLine := Nat × List Text

/-- Reads one source line (R78, R79, R82): comment stripped, then blank, a label declaration `NAME:`, or an
instruction line. A line that is `:` alone declares no label (log entry 12). -/
def readLine (t : Text) : SourceLine :=
  let body := trim (stripComment t)
  let name := trim (body.dropLast)
  if body.isEmpty then .blank
  else if body.getLast? = some ':' && !name.isEmpty then .label (upper name)
  else .instruction (tokens body)

/-- Pass 1 (R82): collects the labels, each with the address of the next instruction line, and the instruction lines;
a second declaration of a name is DuplicateLabel. -/
def pass1 (labels : LabelTable) (addr line : Nat) : List Text → Except LoadError (LabelTable × List CodeLine)
  | [] => .ok (labels, [])
  | t :: rest =>
    match readLine t with
    | .blank => pass1 labels addr (line + 1) rest
    | .label name =>
      if (labels.lookup name).isSome then .error ⟨.duplicateLabel, line⟩
      else pass1 (labels ++ [(name, addr)]) addr (line + 1) rest
    | .instruction toks =>
      match pass1 labels (addr + 1) (line + 1) rest with
      | .ok (ls, code) => .ok (ls, (line, toks) :: code)
      | .error e => .error e

/-- An ADDR operand (R83): the label table first, then a hex literal. A label past program address 255 is no target
(log entry 12). -/
def targetOf (labels : LabelTable) (t : Text) : Option Byte :=
  match labels.lookup t with
  | some a => if a < 256 then some (BitVec.ofNat 8 a) else none
  | none => hexLiteral t

/-- The instruction a mnemonic and its operand tokens spell (R81); none for a wrong operand count or kind. -/
def instrOfTokens (labels : LabelTable) (op : Op) (operands : List Text) : Option Instr :=
  match op.opClass, operands with
  | .rr, [a, b] =>
    match regOfText a, regOfText b with
    | some d, some s => some (instrOf op (.resolved d) (.resolved s) 0x00)
    | _, _ => none
  | .r1, [a] =>
    match regOfText a with
    | some d => some (instrOf op (.resolved d) (.resolved d) 0x00)
    | none => none
  | .imm, [a] => (hexLiteral a).map (instrOf op .unresolved .unresolved)
  | .addr, [a] => (targetOf labels a).map (instrOf op .unresolved .unresolved)
  | .noOperand, [] => some (instrOf op .unresolved .unresolved 0x00)
  | _, _ => none

/-- Pass 2 on one instruction line (R81, R85). -/
def assembleLine (p : Params) (labels : LabelTable) (toks : List Text) : Except LoadErrorKind Word :=
  match toks with
  | [] => .error .unknownMnemonic
  | m :: operands =>
    match opOfText m with
    | none => .error .unknownMnemonic
    | some op =>
      match (instrOfTokens labels op operands).bind (encode p) with
      | some w => .ok w
      | none => .error .invalidOperand

/-- Pass 2 on the instruction lines in order, up to the first error (R120). -/
def pass2 (p : Params) (labels : LabelTable) : List CodeLine → Except LoadError (List Word)
  | [] => .ok []
  | c :: rest =>
    match assembleLine p labels c.2 with
    | .error k => .error ⟨k, c.1⟩
    | .ok w =>
      match pass2 p labels rest with
      | .ok ws => .ok (w :: ws)
      | .error e => .error e

/-- The assembler on the lines of a source (R82 to R86), with the errors in the order of R120: DuplicateLabel, then
RomOverflow (naming the 257th instruction line), then the first error of pass 2. -/
def assembleLines (p : Params) (lines : List Text) : Except LoadError (List Word) :=
  match pass1 [] 0 1 lines with
  | .error e => .error e
  | .ok (labels, code) =>
    match code[256]? with
    | some c => .error ⟨.romOverflow, c.1⟩
    | none => pass2 p labels code

/-- The assembler on a source text. -/
def assemble (p : Params) (source : Text) : Except LoadError (List Word) := assembleLines p (sourceLines source)

/-! ## Hex-load (R89) -/

/-- The word of a hex-load line: one or more hex digits of value at most 0xFFFF. -/
def hexLoadWord (t : Text) : Option Word :=
  if t.isEmpty then none
  else
    match hexValueFrom 0 t with
    | some n => if n ≤ 0xFFFF then some (BitVec.ofNat 16 n) else none
    | none => none

/-- The words of a hex-load, each with its line number; blank lines are skipped. -/
def hexLoadFrom (line : Nat) : List Text → Except LoadError (List (Nat × Word))
  | [] => .ok []
  | t :: rest =>
    if (trim t).isEmpty then hexLoadFrom (line + 1) rest
    else
      match hexLoadWord (trim t) with
      | none => .error ⟨.invalidHexWord, line⟩
      | some w =>
        match hexLoadFrom (line + 1) rest with
        | .ok ws => .ok ((line, w) :: ws)
        | .error e => .error e

/-- Hex-load on the lines of a text: RomOverflow only where every line is a valid word (R120). -/
def hexLoadLines (lines : List Text) : Except LoadError (List Word) :=
  match hexLoadFrom 1 lines with
  | .error e => .error e
  | .ok ws =>
    match ws[256]? with
    | some c => .error ⟨.romOverflow, c.1⟩
    | none => .ok (ws.map Prod.snd)

/-- Hex-load on a text. -/
def hexLoad (text : Text) : Except LoadError (List Word) := hexLoadLines (sourceLines text)

/-- Installing a program, all or nothing (R86, R89, R119): an error leaves the machine as it was and is reported. -/
def State.install (s : State) (program : Except LoadError (List Word)) : State × Option LoadError :=
  match program with
  | .ok words => (s.load words, none)
  | .error e => (s, some e)

/-! ## The disassembler (R88) -/

/-- The placeholder of a word that is no instruction. -/
def unknownText (w : Word) : Text := "UNKNOWN ".toList ++ hexWord w

/-- The operands of class RR as text: the index register of LOAD and STORE is bracketed. -/
def pairText (op : Op) (d s : Reg) : Text :=
  match op with
  | .load => regText d ++ ", [".toList ++ regText s ++ "]".toList
  | .store => "[".toList ++ regText d ++ "], ".toList ++ regText s
  | _ => regText d ++ ", ".toList ++ regText s

/-- One line of text for every word (R88): what it executes, or the placeholder where the opcode is unrecognized or a
needed nibble names no register. -/
def disassemble (p : Params) (w : Word) : Text :=
  match (decodeFields p w).op with
  | none => unknownText w
  | some op =>
    match op.opClass, (decodeFields p w).dest, (decodeFields p w).src with
    | .rr, .resolved d, .resolved s => opText op ++ [' '] ++ pairText op d s
    | .rr, _, _ => unknownText w
    | .r1, .resolved d, _ => opText op ++ [' '] ++ regText d
    | .r1, .unresolved, _ => unknownText w
    | .imm, _, _ => opText op ++ [' '] ++ hexByte (decodeFields p w).data
    | .addr, _, _ => opText op ++ [' '] ++ hexByte (decodeFields p w).data
    | .noOperand, _, _ => opText op

/-! ## Export (R90) -/

/-- A double quote. -/
def quoteChar : Char := Char.ofNat 34

/-- The export line of one program address: `H"<2-hex-addr>" => H"<4-hex-word>";`, the word in uppercase digits (R63).
DESIGN CHOICE (log entry 12): the digits of the address are uppercase too. -/
def exportLine (s : State) (a : Byte) : Text :=
  ['H', quoteChar] ++ hexByte a ++ [quoteChar] ++ " => H".toList ++ [quoteChar] ++ hexWord (s.progAt a) ++
    [quoteChar, ';']

/-- The export of a non-empty program: header, one line per address, footer; none for an empty program. -/
def exportProgram (s : State) : Option (List Text) :=
  if s.len.val = 0 then none
  else
    some (Config.exportHeader ++ (List.range s.len.val).map (fun a => exportLine s (BitVec.ofNat 8 a)) ++
      ["END TABLE;".toList])

end Sys2Proof.Machine
end

