-- ==== Sys2Proof/Safety.lean ====
section
/-! DEFINITION. What the claims about the machine speak of: the well-formed states, the reachable states, and what two
states agree on. -/

namespace Sys2Proof

open Sys2Proof.Machine

/-- The states that the spec gives the machine: parameters R10 allows, both stores in canonical form, and no latch
`ovf` under `PC_OVERFLOW = wrap` (R33). -/
structure Machine.State.WellFormed (s : State) : Prop where
  params : s.params.wellFormed
  mem : Memory.wf s.params s.mem
  prog : ProgramStore.wf s.prog
  ovf : s.params.pcOverflow = .wrap → s.ovf = false

/-- A machine before its first program load, whether or not a reset came before (R137: reset is optional): L = 0 (R35), in
any well-formed state. DESIGN CHOICE (log entry 6): no rule gives the registers, Z, the memory or `ovf` a value before the
first reset and none says that a reset happens at power-up (N8), so all their values are among these states. -/
structure Machine.State.BeforeFirstLoad (s : State) : Prop where
  wellFormed : s.WellFormed
  len : s.len = 0

/-- The states the host can bring about by any RESETs, LOADs, switch samples and Steps (R139), in any order that R137
allows: from the state after reset of an implementation with allowed parameters, or from a machine that was never reset
and holds no program yet, with any values in it (log entry 6). -/
inductive Machine.State.Reachable : State → Prop
  | afterReset (p : Params) (h : p.wellFormed) : Reachable (State.afterReset p)
  | beforeFirstLoad {s : State} (h : s.BeforeFirstLoad) : Reachable s
  | operation {s t : State} (op : HostOp) (h : Reachable s) (hop : applyOp op s = .next t) : Reachable t

/-- Every byte of the data memory reads alike (R49). -/
def SameMemory (s t : State) : Prop := ∀ a : Byte, t.memRead a = s.memRead a

/-- The program store, its length and the parameters are alike (R60, R10). -/
def SameProgram (s t : State) : Prop := t.prog = s.prog ∧ t.len = s.len ∧ t.params = s.params

/-- The switch samples still to come are alike (R111). -/
def SameSwitches (s t : State) : Prop := t.swInputs = s.swInputs ∧ t.swCount = s.swCount

/-- The rest of a Step that did not write the program counter: `pc <- currentPC + 1`, with `ovf` as R29 says. -/
def Advanced (s t : State) : Prop :=
  t.pc = s.pc + 1 ∧
    t.ovf = (s.ovf || (s.params.pcOverflow == .halt && s.pc == 0xFF))

/-- The rest of a Step that wrote the program counter: no advance (R30). -/
def Jumped (s t : State) (target : Byte) : Prop := t.pc = target ∧ t.ovf = s.ovf

/-- Among the registers other than PC, d is now v and the rest are unchanged. -/
def RegistersButPc (s t : State) (d : Reg) (v : Byte) : Prop :=
  ∀ r, r ≠ .pc → t.reg r = if r = d then v else s.reg r

/-- `x[d] <- v` and no other register written (R22, R29, R30): register d is v and every other register but PC is
unchanged; the counter is v where d is PC and advances otherwise. -/
def WroteOnly (s t : State) (d : Reg) (v : Byte) : Prop :=
  RegistersButPc s t d v ∧ (d = .pc → Jumped s t v) ∧ (d ≠ .pc → Advanced s t)

/-- No register but PC is changed. -/
def SameRegisters (s t : State) : Prop := ∀ r, r ≠ .pc → t.reg r = s.reg r

/-- A Step that changes nothing besides the counter's advance (R75, R76). -/
def OnlyAdvanced (s t : State) : Prop :=
  SameRegisters s t ∧ t.z = s.z ∧ Advanced s t ∧ SameMemory s t ∧ SameProgram s t ∧ SameSwitches s t

/-- The memory, the program and the switch samples are alike. -/
def SameRest (s t : State) : Prop := SameMemory s t ∧ SameProgram s t ∧ SameSwitches s t

/-- What an ALU instruction leaves (R92): its result in d, Z set exactly when the result is 0x00, nothing else. -/
def AluOutcome (s t : State) (d : Reg) (r : Byte) : Prop :=
  WroteOnly s t d r ∧ t.z = (r == 0x00) ∧ SameRest s t

/-- The register an ALU instruction writes: its dest nibble's, where every nibble it needs names a register (R76). -/
def Instr.aluDest : Instr → Option Reg
  | .add (.resolved d) (.resolved _) => some d
  | .sub (.resolved d) (.resolved _) => some d
  | .and (.resolved d) (.resolved _) => some d
  | .or (.resolved d) (.resolved _) => some d
  | .xor (.resolved d) (.resolved _) => some d
  | .inc (.resolved d) => some d
  | .dec (.resolved d) => some d
  | .cpl (.resolved d) => some d
  | .rr (.resolved d) => some d
  | .rl (.resolved d) => some d
  | _ => none

/-- Instructions executed one after another, each on the state the one before leaves, up to the first that gives no
next state. -/
def execAll : List Instr → State → Host.Outcome State Fault Refusal
  | [], s => .next s
  | i :: rest, s =>
    match exec i s with
    | .next t => execAll rest t
    | .fault r => .fault r
    | .refused r => .refused r

/-- Whether an instruction writes the program counter (R30), with Z as given: JMP, a taken JZ, CALL, RET, and every
MOV, LOAD or ALU instruction whose destination operand is PC and whose operands all name registers. -/
def Instr.writesCounter (z : Bool) : Instr → Bool
  | .jmp _ => true
  | .jz _ => z
  | .call _ => true
  | .ret => true
  | .mov (.resolved .pc) (.resolved _) => true
  | .load (.resolved .pc) (.resolved _) => true
  | i => i.aluDest == some .pc

end Sys2Proof
end

