-- ==== Sys2Proof/Certificates/Slice0/Obligations.lean ====
section
/-! DEFINITION. The statements about the machine, one `def Obligations.<Name> : Prop` each. A docstring names the rule it
formalises; where a clause rests on a choice the spec marks as its own (a decision D<n>) or on the model's own (a log
entry), it says so. -/

open Sys2Proof Sys2Proof.Machine

/-! ## The codec -/

/-- R71, with the canonical words of R72. -/
def Obligations.DecodeOfEncodeIsTheInstruction : Prop :=
  ∀ p : Params, p.wellFormed →
    (∀ i : Instr, i.wellFormed = true → ∃ w, encode p i = some w ∧ decode p w = .ok i) ∧
      ∀ w : Word, (∃ i, decode p w = .ok i ∧ encode p i = some w) ↔ canonical p w = true

/-- R75 and R77: a word is unrecognized exactly where no row has its opcode, or, under `HIGH_BITS = unrecognized`, where
one of its bits 15:13 is set; under the default parameters (D9, D10) these are the words with opcode 0x0A to 0x15. -/
def Obligations.UnrecognizedWordsAreThoseWithNoRow : Prop :=
  (∀ (p : Params) (w : Word),
    (∃ r, decode p w = .error r) ↔
      (p.highBits = .unrecognized ∧ highField w ≠ 0#3) ∨ ∀ o, opcodeOf p o ≠ opcodeField w) ∧
    ∀ w : Word,
      (∃ r, decode defaultParams w = .error r) ↔ 0x0A ≤ (opcodeField w).toNat ∧ (opcodeField w).toNat ≤ 0x15

/-- R69, R10: under `HIGH_BITS = ignore` decode does not read bits 15:13; under `unrecognized` a word with one of them
set is rejected. The parameter is the spec's decision D10. -/
def Obligations.HighBitsParameterDecidesBits15To13 : Prop :=
  ∀ p : Params,
    (p.highBits = .ignore →
      ∀ w w' : Word, w.toNat % 2 ^ 13 = w'.toNat % 2 ^ 13 → decode p w = decode p w') ∧
      (p.highBits = .unrecognized →
        ∀ w : Word, 2 ^ 13 ≤ w.toNat → decode p w = .error (.highBitsSet (highField w)))

/-- R73 (decision D21 for IN, OUT and RET): the src nibble of the one-operand ALU instructions and the whole data byte
of IN, OUT and RET are ignored, whether or not they resolve. -/
def Obligations.IgnoredFieldsDoNotChangeTheInstruction : Prop :=
  ∀ (p : Params) (w w' : Word) (i : Instr), decode p w = .ok i → w.toNat / 2 ^ 8 = w'.toNat / 2 ^ 8 →
    (i.op.opClass = .r1 → destField w = destField w' → decode p w' = .ok i) ∧
      (i.op.opClass = .noOperand → decode p w' = .ok i)

/-- Under the default parameters, which are the spec's decisions D6 and D7 (the register nibbles) and D9 (CALL's and RET's
opcodes; log entry 5): the key of every nibble (R67, R68), and one word of every mnemonic, made from its pattern in R74,
with the instruction it decodes to. That IN ignores its data byte (`1C55`) is decision D21. -/
def Obligations.SampleWordsDecodeRight : Prop :=
  (keyOf defaultParams 0x0 = .resolved .r0 ∧ keyOf defaultParams 0x1 = .resolved .r1 ∧
    keyOf defaultParams 0x2 = .resolved .r2 ∧ keyOf defaultParams 0x3 = .resolved .r3 ∧
    keyOf defaultParams 0x4 = .resolved .ac ∧ keyOf defaultParams 0x5 = .resolved .pc ∧
    keyOf defaultParams 0x6 = .resolved .rs ∧ keyOf defaultParams 0x7 = .resolved .sp ∧
    ∀ n : Nibble, 8 ≤ n.toNat → keyOf defaultParams n = .unresolved) ∧
    defaultParams.opcCall = 0x16 ∧ defaultParams.opcRet = 0x17 ∧
    decode defaultParams 0x0040 = .ok (.add (.resolved .ac) (.resolved .r0)) ∧
    decode defaultParams 0x0112 = .ok (.sub (.resolved .r1) (.resolved .r2)) ∧
    decode defaultParams 0x0212 = .ok (.inc (.resolved .r1)) ∧
    decode defaultParams 0x0322 = .ok (.dec (.resolved .r2)) ∧
    decode defaultParams 0x0433 = .ok (.cpl (.resolved .r3)) ∧
    decode defaultParams 0x0501 = .ok (.and (.resolved .r0) (.resolved .r1)) ∧
    decode defaultParams 0x0642 = .ok (.or (.resolved .ac) (.resolved .r2)) ∧
    decode defaultParams 0x0702 = .ok (.xor (.resolved .r0) (.resolved .r2)) ∧
    decode defaultParams 0x0866 = .ok (.rr (.resolved .rs)) ∧
    decode defaultParams 0x0977 = .ok (.rl (.resolved .sp)) ∧
    decode defaultParams 0x1603 = .ok (.call 0x03) ∧
    decode defaultParams 0x1700 = .ok .ret ∧
    decode defaultParams 0x1807 = .ok (.jz 0x07) ∧
    decode defaultParams 0x1910 = .ok (.store (.resolved .r1) (.resolved .r0)) ∧
    decode defaultParams 0x1A01 = .ok (.load (.resolved .r0) (.resolved .r1)) ∧
    decode defaultParams 0x1B00 = .ok .output ∧
    decode defaultParams 0x1C55 = .ok .input ∧
    decode defaultParams 0x1D05 = .ok (.set 0x05) ∧
    decode defaultParams 0x1E80 = .ok (.jmp 0x80) ∧
    decode defaultParams 0x1F45 = .ok (.mov (.resolved .ac) (.resolved .pc)) ∧
    decode defaultParams 0x1FC0 = .ok (.mov .unresolved (.resolved .r0)) ∧
    decode defaultParams 0x0A12 = .error (.unrecognizedOpcode 0x0A)

/-- R74, R69: every word whose opcode field holds a mnemonic's number (and whose bits 15:13 are zero, or ignored) decodes
to that mnemonic, with the keys of its two nibbles or its data byte as operands; and R68: the key of a nibble is the
register that `REG_INDEX` maps to it. CALL's and RET's numbers are the parameters of decision D9; that the words whose
operand fields are ignored decode alike is decision D21. -/
def Obligations.EachOpcodeDecodesToItsMnemonic : Prop :=
  (∀ (p : Params) (w : Word) (d s : Key) (v : Byte), p.wellFormed → (p.highBits = .ignore ∨ highField w = 0#3) →
    keyOf p (destField w) = d → keyOf p (srcField w) = s → dataField w = v →
      (opcodeField w = 0x00 → decode p w = .ok (.add d s)) ∧
      (opcodeField w = 0x01 → decode p w = .ok (.sub d s)) ∧
      (opcodeField w = 0x02 → decode p w = .ok (.inc d)) ∧
      (opcodeField w = 0x03 → decode p w = .ok (.dec d)) ∧
      (opcodeField w = 0x04 → decode p w = .ok (.cpl d)) ∧
      (opcodeField w = 0x05 → decode p w = .ok (.and d s)) ∧
      (opcodeField w = 0x06 → decode p w = .ok (.or d s)) ∧
      (opcodeField w = 0x07 → decode p w = .ok (.xor d s)) ∧
      (opcodeField w = 0x08 → decode p w = .ok (.rr d)) ∧
      (opcodeField w = 0x09 → decode p w = .ok (.rl d)) ∧
      (opcodeField w = p.opcCall → decode p w = .ok (.call v)) ∧
      (opcodeField w = p.opcRet → decode p w = .ok .ret) ∧
      (opcodeField w = 0x18 → decode p w = .ok (.jz v)) ∧
      (opcodeField w = 0x19 → decode p w = .ok (.store d s)) ∧
      (opcodeField w = 0x1A → decode p w = .ok (.load d s)) ∧
      (opcodeField w = 0x1B → decode p w = .ok .output) ∧
      (opcodeField w = 0x1C → decode p w = .ok .input) ∧
      (opcodeField w = 0x1D → decode p w = .ok (.set v)) ∧
      (opcodeField w = 0x1E → decode p w = .ok (.jmp v)) ∧
      (opcodeField w = 0x1F → decode p w = .ok (.mov d s))) ∧
    ∀ (p : Params) (n : Nibble) (r : Reg), p.wellFormed → (keyOf p n = .resolved r ↔ regNibble p r = n)

/-! ## The ALU -/

/-- R91 to R94, R98 to R100: the two-operand ALU instructions complete in every state and for every pair of registers,
the same register twice and PC included. SUB's operand order is the spec's decision D11; operands and results of PC
follow D2 to D4. -/
def Obligations.TwoOperandAluInstructionsGiveTheirResult : Prop :=
  ∀ (s : State) (d e : Reg),
    (∃ t, exec (.add (.resolved d) (.resolved e)) s = .next t ∧
      AluOutcome s t d (BitVec.ofNat 8 (((s.operand d).toNat + (s.operand e).toNat) % 256))) ∧
    (∃ t, exec (.sub (.resolved d) (.resolved e)) s = .next t ∧
      AluOutcome s t d (BitVec.ofNat 8 (((s.operand d).toNat + 256 - (s.operand e).toNat) % 256))) ∧
    (∃ t, exec (.and (.resolved d) (.resolved e)) s = .next t ∧
      AluOutcome s t d (s.operand d &&& s.operand e)) ∧
    (∃ t, exec (.or (.resolved d) (.resolved e)) s = .next t ∧
      AluOutcome s t d (s.operand d ||| s.operand e)) ∧
    (∃ t, exec (.xor (.resolved d) (.resolved e)) s = .next t ∧
      AluOutcome s t d (s.operand d ^^^ s.operand e))

/-- R91, R92, R95 to R97, R101, R102: the one-operand ALU instructions complete in every state and for every register.
CPL's complement and the shifts' zero fill are the spec's decisions D12 and D13; PC as the operand follows D2 to D4. -/
def Obligations.OneOperandAluInstructionsGiveTheirResult : Prop :=
  ∀ (s : State) (d : Reg),
    (∃ t, exec (.inc (.resolved d)) s = .next t ∧
      AluOutcome s t d (BitVec.ofNat 8 (((s.operand d).toNat + 1) % 256))) ∧
    (∃ t, exec (.dec (.resolved d)) s = .next t ∧
      AluOutcome s t d (BitVec.ofNat 8 (((s.operand d).toNat + 255) % 256))) ∧
    (∃ t, exec (.cpl (.resolved d)) s = .next t ∧
      AluOutcome s t d (BitVec.ofNat 8 (255 - (s.operand d).toNat))) ∧
    (∃ t, exec (.rr (.resolved d)) s = .next t ∧
      AluOutcome s t d (BitVec.ofNat 8 ((s.operand d).toNat / 2))) ∧
    (∃ t, exec (.rl (.resolved d)) s = .next t ∧
      AluOutcome s t d (BitVec.ofNat 8 (2 * (s.operand d).toNat % 256)))

/-- R102: "RL equals `ADD d, d` in result and flag", for every register and state (the fill bit is decision D13). -/
def Obligations.RlIsAddOfTheRegisterToItself : Prop :=
  ∀ (s : State) (d : Reg), exec (.rl (.resolved d)) s = exec (.add (.resolved d) (.resolved d)) s

/-- R97: CPL twice restores the value, for every register but the program counter (CPL is decision D12). -/
def Obligations.CplTwiceRestoresTheRegister : Prop :=
  ∀ (s t u : State) (d : Reg), d ≠ .pc →
    exec (.cpl (.resolved d)) s = .next t → exec (.cpl (.resolved d)) t = .next u →
      ∀ r, r ≠ .pc → u.reg r = s.reg r

/-- R94, R100: a register subtracted from, or combined by XOR with, itself gives 0x00 and Z = 1 whatever it held. -/
def Obligations.SubAndXorOfARegisterWithItselfGiveZero : Prop :=
  ∀ (s : State) (d : Reg),
    (∃ t, exec (.sub (.resolved d) (.resolved d)) s = .next t ∧ t.reg d = 0x00 ∧ t.z = true) ∧
      ∃ t, exec (.xor (.resolved d) (.resolved d)) s = .next t ∧ t.reg d = 0x00 ∧ t.z = true

/-- R24: the ten ALU instructions set Z to whether their result, the new value of their destination, is 0x00; no other
instruction, and none that degrades to a no-op, writes Z; JZ reads it, and no other instruction does. That an unresolved
operand makes the whole instruction a no-op is the spec's decision D8. -/
def Obligations.ZeroFlagIsWrittenByTheAluAndReadByJz : Prop :=
  (∀ (i : Instr) (s t : State) (d : Reg), i.aluDest = some d → exec i s = .next t → t.z = (t.reg d == 0x00)) ∧
    (∀ (i : Instr) (s t : State), (i.op.isAlu = false ∨ i.wellFormed = false) → exec i s = .next t → t.z = s.z) ∧
    (∀ i : Instr, i.aluDest.isSome = (i.op.isAlu && i.wellFormed)) ∧
    (∀ (i : Instr) (s t : State) (b : Bool), i.op ≠ .jz → exec i s = .next t →
      ∃ u, exec i { s with z := b } = .next u ∧ { u with z := t.z } = t) ∧
    ∀ (s : State) (a : Byte), (∃ t, exec (.jz a) { s with z := true } = .next t ∧ t.pc = a) ∧
      ∃ t, exec (.jz a) { s with z := false } = .next t ∧ t.pc = s.pc + 1

/-! ## Moves, control transfer, input and output -/

/-- R103 (decisions D2 to D4 for PC): MOV copies a register; with PC as its destination it is an indirect jump. -/
def Obligations.MovCopiesTheSource : Prop :=
  ∀ (s : State) (d e : Reg), ∃ t, exec (.mov (.resolved d) (.resolved e)) s = .next t ∧
    WroteOnly s t d (s.operand e) ∧ t.z = s.z ∧ SameRest s t

/-- R104: SET writes its data byte to AC and changes no flag; the data byte is never read as register keys. -/
def Obligations.SetLoadsTheImmediateIntoAc : Prop :=
  (∀ (s : State) (v : Byte), ∃ t, exec (.set v) s = .next t ∧
    t.ac = v ∧ RegistersButPc s t .ac v ∧ t.z = s.z ∧ SameRest s t) ∧
    (∀ (p : Params) (v : Byte), encode p (.set v) = some (packWord 0x1D v)) ∧
    ∀ (p : Params) (w : Word), p.wellFormed → opcodeField w = 0x1D → (p.highBits = .ignore ∨ highField w = 0#3) →
      decode p w = .ok (.set (dataField w))

/-- R106: JMP sets the program counter to its data byte, with no advance, and changes nothing else; a target at or beyond
L leaves the machine halted; and a running machine whose next word is a JMP to its own address stays as it is for any
number of Steps. -/
def Obligations.JmpSetsTheCounter : Prop :=
  (∀ (s : State) (a : Byte), ∃ t, exec (.jmp a) s = .next t ∧
    Jumped s t a ∧ SameRegisters s t ∧ t.z = s.z ∧ SameRest s t ∧ (s.len.val ≤ a.toNat → t.halted = true)) ∧
    (∀ (s : State) (n : Nat), s.halted = false → decode s.params s.fetch = .ok (.jmp s.pc) →
      Sys2Proof.core.run n s = .next s) ∧
    (∀ (p : Params) (a : Byte), encode p (.jmp a) = some (packWord 0x1E a)) ∧
    ∀ (p : Params) (w : Word), p.wellFormed → opcodeField w = 0x1E → (p.highBits = .ignore ∨ highField w = 0#3) →
      decode p w = .ok (.jmp (dataField w))

/-- R107: JZ is taken exactly when Z = 1 and falls through otherwise; it writes no register but PC and no flag. After any
number of instructions outside the ALU class it branches on the Z there was before them, and after reset it falls through.
A taken JZ to `currentPC + 1` leaves what a fall-through leaves, but where `PC_OVERFLOW = halt` (decision D5) and the
counter is 0xFF: there the fall-through sets `ovf` (R29) and the taken jump does not (R30). -/
def Obligations.JzIsTakenExactlyWhenZIsOne : Prop :=
  (∀ (s : State) (a : Byte), ∃ t, exec (.jz a) s = .next t ∧
    (s.z = true → Jumped s t a) ∧ (s.z = false → Advanced s t) ∧ SameRegisters s t ∧ t.z = s.z ∧ SameRest s t) ∧
    (∀ (s : State) (instrs : List Instr) (a : Byte), (∀ i ∈ instrs, i.op.isAlu = false) →
      ∃ t u, execAll instrs s = .next t ∧ t.z = s.z ∧ exec (.jz a) t = .next u ∧
        u.pc = if s.z then a else t.pc + 1) ∧
    (∀ (s : State) (a : Byte), ∃ t, exec (.jz a) s.resetOp = .next t ∧ t.pc = 0x01) ∧
    (∀ s : State, (s.params.pcOverflow = .wrap ∨ s.pc ≠ 0xFF) →
      ∃ t, exec (.jz (s.pc + 1)) { s with z := true } = .next t ∧
        exec (.jz (s.pc + 1)) { s with z := false } = .next { t with z := false }) ∧
    (∀ (p : Params) (a : Byte), encode p (.jz a) = some (packWord 0x18 a)) ∧
    ∀ (p : Params) (w : Word), p.wellFormed → opcodeField w = 0x18 → (p.highBits = .ignore ∨ highField w = 0#3) →
      decode p w = .ok (.jz (dataField w))

/-- R108 (R66, R74): CALL puts `currentPC + 1` in SP, whatever `PC_READ` is, and jumps; no memory is written. Its word has
the opcode `OPC_CALL` (a parameter, decision D9) and the target as data byte, and every word with that opcode decodes to
CALL of its data byte. -/
def Obligations.CallSavesTheReturnAddressInSp : Prop :=
  (∀ (s : State) (a : Byte), ∃ t, exec (.call a) s = .next t ∧
    Jumped s t a ∧ RegistersButPc s t .sp (s.pc + 1) ∧ t.z = s.z ∧ SameRest s t) ∧
    ∀ p : Params, p.wellFormed → (∀ a : Byte, encode p (.call a) = some (packWord p.opcCall a)) ∧
      ∀ w : Word, opcodeField w = p.opcCall → (p.highBits = .ignore ∨ highField w = 0#3) →
        decode p w = .ok (.call (dataField w))

/-- R109: RET sets the program counter to SP's value, keeps SP, and ignores its data byte; a second RET goes to the same
address, an SP at or beyond L leaves the machine halted, and after reset RET goes to 0x00. -/
def Obligations.RetSetsTheCounterToSp : Prop :=
  (∀ s : State, ∃ t, exec .ret s = .next t ∧
    Jumped s t s.sp ∧ SameRegisters s t ∧ t.z = s.z ∧ SameRest s t ∧ exec .ret t = .next t ∧
      (s.len.val ≤ s.sp.toNat → t.halted = true)) ∧
    (∀ s : State, ∃ t, exec .ret s.resetOp = .next t ∧ t.pc = 0x00) ∧
    ∀ p : Params, p.wellFormed → encode p .ret = some (packWord p.opcRet 0x00) ∧
      ∀ w : Word, opcodeField w = p.opcRet → (p.highBits = .ignore ∨ highField w = 0#3) → decode p w = .ok .ret

/-- R108, R109: a RET right after a CALL resumes at the instruction after the CALL; after a nested CALL, both RETs go to
the instruction after the inner CALL: the outer return address is lost, SP being a single slot. -/
def Obligations.NestedCallLosesTheOuterReturnAddress : Prop :=
  (∀ (s t u : State) (a : Byte), exec (.call a) s = .next t → exec .ret t = .next u → u.pc = s.pc + 1) ∧
    ∀ (s t u v x : State) (a b : Byte), exec (.call a) s = .next t → exec (.call b) t = .next u →
      exec .ret u = .next v → exec .ret v = .next x → v.pc = a + 1 ∧ x.pc = a + 1

/-- R111, R113: IN completes in every state, writing to AC the sample that the state presents. The sample and its
bookkeeping (`switchSample`, `dropSample`) are the model's own (log entry 1): the first sample the host has supplied, which
is then gone; where there is none, a free value. -/
def Obligations.InWritesTheSampleToAc : Prop :=
  ∀ s : State, ∃ t, exec .input s = .next t ∧
    WroteOnly s t .ac s.switchSample ∧ t.z = s.z ∧ SameMemory s t ∧ SameProgram s t ∧
    (∀ v rest, s.swInputs = v :: rest → t.ac = v ∧ t.swInputs = rest ∧ t.swCount = s.swCount) ∧
    (s.swInputs = [] → t.ac = Config.switchSample s.swCount ∧ t.swInputs = [] ∧ t.swCount = s.swCount + 1)

/-- R113: in a Step given the sample SW, IN writes SW to AC, for every value of SW; Z is unchanged even when SW = 0x00;
the data byte is ignored. That the Step leaves the samples supplied for later INs as they were (the last part of
`SameRest`) is the model's DESIGN CHOICE, log entry 1. -/
def Obligations.StepWithASampleInputsIt : Prop :=
  (∀ (s : State) (sw : Byte), s.halted = false → decode s.params s.fetch = .ok .input →
    ∃ t, stepWith sw s = .next t ∧ RegistersButPc s t .ac sw ∧ t.z = s.z ∧ SameRest s t) ∧
    (∀ p : Params, encode p .input = some 0x1C00) ∧
    ∀ (p : Params) (w : Word), p.wellFormed → opcodeField w = 0x1C → (p.highBits = .ignore ∨ highField w = 0#3) →
      decode p w = .ok .input

/-- R114: OUT copies AC to RS and changes nothing else; the data byte is ignored. -/
def Obligations.OutCopiesAcToRs : Prop :=
  (∀ s : State, ∃ t, exec .output s = .next t ∧
    t.rsOut = s.ac ∧ RegistersButPc s t .rs s.ac ∧ t.z = s.z ∧ SameRest s t) ∧
    (∀ p : Params, encode p .output = some 0x1B00) ∧
    ∀ (p : Params) (w : Word), p.wellFormed → opcodeField w = 0x1B → (p.highBits = .ignore ∨ highField w = 0#3) →
      decode p w = .ok .output

/-- R43: the switch sample is read only by a Step that executes IN: every other Step does the same whatever the
sample. -/
def Obligations.OnlyInReadsTheSwitches : Prop :=
  ∀ (s : State) (v v' : Byte), (s.halted = true ∨ decode s.params s.fetch ≠ .ok .input) →
    stepWith v s = stepWith v' s

/-! ## Memory -/

/-- R49, R50: a write sets the cell named by the low four bits of the address and no other cell; a read gives the
content of the cell named by the low four bits. -/
def Obligations.MemWriteSetsOneCellAndMemReadReadsIt : Prop :=
  (∀ (s : State) (a v : Byte) (c : Cell),
    (s.memWrite a v).cell c = if c.toNat = a.toNat % 16 then v else s.cell c) ∧
    (∀ (s : State) (a : Byte) (c : Cell), c.toNat = a.toNat % 16 → s.memRead a = s.cell c) ∧
    ∀ (s : State) (a v : Byte), { s.memWrite a v with mem := s.mem } = s

/-- R115 (decision D27 for the nibble): LOAD reads the cell its index register names, bits 7:4 of the index being
ignored (R48). -/
def Obligations.LoadReadsTheIndexedCell : Prop :=
  ∀ (s : State) (d e : Reg) (c : Cell), c.toNat = (s.operand e).toNat % 16 →
    ∃ t, exec (.load (.resolved d) (.resolved e)) s = .next t ∧
      WroteOnly s t d (s.cell c) ∧ t.z = s.z ∧ SameRest s t

/-- R116 (decision D27 for the nibble): STORE writes its data register to the cell its index register names and changes
no register, no flag and no other byte of memory; the stored byte is at the low four bits of the index (R48). -/
def Obligations.StoreWritesTheIndexedCellOnly : Prop :=
  ∀ (s : State) (d e : Reg), ∃ t, exec (.store (.resolved d) (.resolved e)) s = .next t ∧
    (∀ b : Byte, t.memRead b =
      if b.toNat % 16 = (s.operand d).toNat % 16 then s.operand e else s.memRead b) ∧
    SameRegisters s t ∧ Advanced s t ∧ t.z = s.z ∧ SameProgram s t ∧ SameSwitches s t

/-- R57 (and R48, R115, R116): a LOAD right after a STORE gives the stored byte where the two indexes name one cell,
and what the cell held before where they do not. -/
def Obligations.LoadAfterStoreSeesIt : Prop :=
  ∀ (s t u : State) (d e f g : Reg), f ≠ .pc →
    exec (.store (.resolved d) (.resolved e)) s = .next t →
    exec (.load (.resolved f) (.resolved g)) t = .next u →
      u.reg f =
        if (t.operand g).toNat % 16 = (s.operand d).toNat % 16 then s.operand e else s.memRead (t.operand g)

/-- Two memories in canonical form that read alike at all 16 cells are the same data: the memory's form (log entry 4)
hides nothing. -/
def Obligations.CanonicalMemoryIsDeterminedByItsReads : Prop :=
  ∀ (s : State) (m : Memory), Memory.wf s.params s.mem → Memory.wf s.params m →
    (∀ c : Cell, s.cell c = ({ s with mem := m }).cell c) → s.mem = m

/-- R51: in a Step, the data memory is written only by STORE and read only by LOAD, neither by another instruction nor
by the fetch. -/
def Obligations.OnlyStoreWritesAndOnlyLoadReadsMemory : Prop :=
  (∀ s t : State, step s = .next t → t.mem ≠ s.mem →
    ∃ d e, decode s.params s.fetch = .ok (.store d e)) ∧
    ∀ (s t : State) (m : Memory), (∀ d e, decode s.params s.fetch ≠ .ok (.load d e)) → step s = .next t →
      ∃ u, step { s with mem := m } = .next u ∧ { u with mem := t.mem } = t

/-! ## Operands that name no register, and unrecognized words -/

/-- R76 (decision D8): an instruction with a needed nibble that names no register changes nothing besides the counter's
advance. It holds of all thirteen instructions with register operands. -/
def Obligations.UnresolvedOperandsMakeANoOp : Prop :=
  ∀ (i : Instr) (s : State), i.wellFormed = false → ∃ t, exec i s = .next t ∧ OnlyAdvanced s t

/-- R75: a Step on an unrecognized word changes nothing besides the counter's advance. -/
def Obligations.UnrecognizedWordOnlyAdvancesTheCounter : Prop :=
  ∀ (s : State) (r : DecodeReject), s.halted = false → decode s.params s.fetch = .error r →
    ∃ t, step s = .next t ∧ OnlyAdvanced s t

/-! ## The Step and the program counter -/

/-- R41: on a machine that is not halted, a Step whose fetched word decodes to an instruction is that instruction. -/
def Obligations.StepRunsTheDecodedInstruction : Prop :=
  ∀ (s : State) (i : Instr), s.halted = false → decode s.params s.fetch = .ok i → step s = exec i s

/-- R31 (decision D25): the machine is halted exactly when `pc ≥ L` or, under `PC_OVERFLOW = halt`, `ovf = 1`; a Step on
a halted machine changes no state at all. -/
def Obligations.HaltedStepChangesNothing : Prop :=
  (∀ s : State, s.halted = true ↔ s.len.val ≤ s.pc.toNat ∨ (s.params.pcOverflow = .halt ∧ s.ovf = true)) ∧
    ∀ s : State, s.halted = true → step s = .next s

/-- R131 (decision D23): a halted machine stays halted, all its state unchanged, through any number of Steps. -/
def Obligations.HaltedMachineStaysAsItIs : Prop :=
  ∀ (s : State) (n : Nat), s.halted = true → Sys2Proof.core.run n s = .next s

/-- R138, R142: the host's run mode, which stops of itself at halt, leaves what the same number of plain Steps leaves. -/
def Obligations.RunModeIsRepeatedSteps : Prop :=
  ∀ (n : Nat) (s : State), runMode n s = Sys2Proof.core.run n s

/-- R136: a program of length 0 leaves the machine halted, whatever the rest of its state. -/
def Obligations.EmptyProgramIsHalted : Prop :=
  ∀ s : State, s.len = 0 → s.halted = true ∧ step s = .next s

/-- R140 (and decision D5): under `PC_OVERFLOW = wrap` a program of 256 words never halts, from any state and for any
number of Steps. -/
def Obligations.FullProgramNeverHaltsUnderWrap : Prop :=
  ∀ (s : State) (n : Nat), s.len.val = 256 → s.params.pcOverflow = .wrap →
    ∃ t, Sys2Proof.core.run n s = .next t ∧ t.halted = false

/-- R29, R30 (decisions D4 and D5): an instruction that does not write the program counter advances it by one, and one
that writes it is not advanced and leaves `ovf` alone. -/
def Obligations.CounterAdvancesUnlessWritten : Prop :=
  ∀ (i : Instr) (s t : State), exec i s = .next t →
    (i.writesCounter s.z = false → Advanced s t) ∧ (i.writesCounter s.z = true → t.ovf = s.ovf)

/-- R29, R33 (decision D5): a Step from 0xFF that does not write the counter leaves it at 0x00; under
`PC_OVERFLOW = wrap` it leaves `ovf` as it was, under `halt` it leaves the machine halted. -/
def Obligations.AdvanceFromTheTopWrapsOrHalts : Prop :=
  ∀ (i : Instr) (s t : State), s.pc = 0xFF → i.writesCounter s.z = false → exec i s = .next t →
    t.pc = 0x00 ∧ (s.params.pcOverflow = .wrap → t.ovf = s.ovf) ∧ (s.params.pcOverflow = .halt → t.halted = true)

/-- R21 (decision D3): as a source operand PC gives `currentPC + 1` under `PC_READ = next` and `currentPC` under
`current`; any other register gives its content. -/
def Obligations.PcOperandFollowsPcRead : Prop :=
  ∀ (s : State) (d e : Reg), d ≠ .pc → ∃ t, exec (.mov (.resolved d) (.resolved e)) s = .next t ∧
    (e ≠ .pc → t.reg d = s.reg e) ∧
    (e = .pc → s.params.pcRead = .next → t.reg d = s.pc + 1) ∧
    (e = .pc → s.params.pcRead = .current → t.reg d = s.pc)

/-- R117, R118, R123: no Step stops the machine: in every state, whatever word is fetched, a Step answers a next state;
there is no fault and no refusal. -/
def Obligations.EveryStepAnswersANextState : Prop :=
  ∀ s : State, ∃ t, step s = .next t

/-- R34, R60 and R10: no Step changes the program store, its length or the parameters. -/
def Obligations.NoStepChangesTheProgram : Prop :=
  ∀ s t : State, step s = .next t → SameProgram s t

/-- R34: the Step never fetches `Prog[i]` for i ≥ L: two machines that differ only in such words step alike. -/
def Obligations.WordsBeyondTheLengthAreNeverFetched : Prop :=
  ∀ (s t : State) (m : ProgramStore),
    (∀ a : Byte, a.toNat < s.len.val → ({ s with prog := m }).progAt a = s.progAt a) → step s = .next t →
      step { s with prog := m } = .next { t with prog := m }

/-! ## Invariants -/

/-- Every Step keeps the well-formed states: both stores in canonical form, allowed parameters, no `ovf` under
`PC_OVERFLOW = wrap` (R33, R34, R37; the canonical form is log entry 4). -/
def Obligations.StepKeepsWellFormedStates : Prop :=
  ∀ s t : State, s.WellFormed → step s = .next t → t.WellFormed

/-- The state after reset is well formed, and so is the state after reset of every implementation with allowed
parameters (R46, R10). Well formed includes the canonical form of the two stores, the model's DESIGN CHOICE of log
entry 4. -/
def Obligations.ResetStateIsWellFormed : Prop :=
  State.reset.WellFormed ∧ ∀ p : Params, p.wellFormed → (State.afterReset p).WellFormed

/-- RESET, LOAD and the supply of switch samples keep the well-formed states. Well formed includes the canonical form of
the two stores, the model's DESIGN CHOICE of log entry 4; the list of samples is the model's too, log entry 1. -/
def Obligations.HostOperationsKeepWellFormedStates : Prop :=
  ∀ (s : State) (ws : List Word) (vs : List Byte), s.WellFormed →
    s.resetOp.WellFormed ∧ (s.load ws).WellFormed ∧ (s.supplySwitches vs).WellFormed

/-- Every state the host can bring about by RESETs, LOADs, samples and Steps in any order (R139), with or without a reset
before the first load (R137; log entry 6 for the values before a reset), is well formed. Well formed includes the canonical form of the two stores, the model's DESIGN CHOICE of log entry 4; the operations on samples
are the model's too, log entry 1. -/
def Obligations.ReachableStatesAreWellFormed : Prop :=
  ∀ s : State, s.Reachable → s.WellFormed

/-! ## Reset and program load -/

/-- R23, R25, R32: after reset every register, PC among them, holds 0x00 and Z = 0; a program load also sets PC to
0x00. -/
def Obligations.ResetLeavesRegistersAndFlagZero : Prop :=
  (∀ r, State.reset.reg r = 0x00) ∧ State.reset.z = false ∧
    (∀ (s : State) (r : Reg), s.resetOp.reg r = 0x00) ∧ (∀ s : State, s.resetOp.z = false) ∧
    ∀ (s : State) (ws : List Word), ws.length ≤ 256 → (s.load ws).pc = 0x00

/-- R132, R133 (decisions D15 and D16): RESET puts every memory cell at its `MEM_INIT` byte, clears `ovf`, leaves the
program and its length as they are, and the next fetch is at program address 0. That the switch samples to come
stay is the model's (log entry 1). -/
def Obligations.ResetRestoresMemoryAndKeepsTheProgram : Prop :=
  ∀ s : State,
    (∀ c : Cell, s.resetOp.cell c = s.params.memInit[c.toNat]'c.isLt) ∧ s.resetOp.ovf = false ∧
      SameProgram s s.resetOp ∧ SameSwitches s s.resetOp ∧ s.resetOp.fetch = s.progAt 0x00

/-- R134 (decision D17): a load of n ≤ 256 words puts word i at program address i, sets L to n and PC to 0x00, clears
`ovf` and changes nothing else; a load of more than 256 words changes nothing. That a load leaves the switch samples to
come and the parameters is about the model's own fields for them (DESIGN CHOICE, log entries 1 and 5). -/
def Obligations.LoadInstallsTheWholeProgram : Prop :=
  (∀ (s : State) (ws : List Word), ws.length ≤ 256 →
    (∀ (i : Nat) (h : i < ws.length), (s.load ws).progAt (BitVec.ofNat 8 i) = ws[i]) ∧
      (s.load ws).len.val = ws.length ∧ (s.load ws).pc = 0x00 ∧ (s.load ws).ovf = false ∧
      SameRegisters s (s.load ws) ∧ (s.load ws).z = s.z ∧ SameMemory s (s.load ws) ∧
      SameSwitches s (s.load ws) ∧ (s.load ws).params = s.params) ∧
    ∀ (s : State) (ws : List Word), 256 < ws.length → s.load ws = s

/-- R55, R86, R134: after a load of a program that is not empty, the machine runs and the next Step fetches its first
word. -/
def Obligations.LoadedProgramStartsAtItsFirstWord : Prop :=
  ∀ (s : State) (w : Word) (ws : List Word), ws.length < 256 →
    (s.load (w :: ws)).halted = false ∧ (s.load (w :: ws)).fetch = w

/-- R137, R136, R134: reset is optional. Whatever a machine before its first load holds (the values before a reset are open,
log entry 6; its well-formedness includes the canonical form of log entry 4), a Step changes nothing; the first load of a
program that is not empty makes it run that program's first word, with every register but PC, Z and the memory as they
were, so only a RESET before or after the load makes them zero, or `MEM_INIT`. -/
def Obligations.FirstLoadNeedsNoReset : Prop :=
  ∀ s : State, s.BeforeFirstLoad → step s = .next s ∧
    ∀ (w : Word) (ws : List Word), ws.length < 256 →
      (s.load (w :: ws)).Reachable ∧ (s.load (w :: ws)).halted = false ∧ (s.load (w :: ws)).fetch = w ∧
        SameRegisters s (s.load (w :: ws)) ∧ (s.load (w :: ws)).z = s.z ∧ SameMemory s (s.load (w :: ws)) ∧
        (∀ r, (s.load (w :: ws)).resetOp.reg r = 0x00) ∧ (s.load (w :: ws)).resetOp.z = false ∧
        s.resetOp.load (w :: ws) = (s.load (w :: ws)).resetOp

/-! ## The software that builds programs -/

/-- R88: for a canonical word the disassembler produces text that the assembler turns back into the same word, under all
allowed parameters (the text forms are decisions D14 and D20). -/
def Obligations.AssembleOfDisassembleIsTheWord : Prop :=
  ∀ (p : Params) (w : Word), p.wellFormed → canonical p w = true →
    assembleLines p [disassemble p w] = .ok [w]

/-- R72, R85, R86: a successful assembly gives at most 256 words, each canonical. -/
def Obligations.AssemblyGivesAtMost256CanonicalWords : Prop :=
  ∀ (p : Params) (lines : List Text) (ws : List Word), p.wellFormed → assembleLines p lines = .ok ws →
    ws.length ≤ 256 ∧ ∀ w ∈ ws, canonical p w = true

/-- R89 (decision D18): a successful hex-load gives at most 256 words. -/
def Obligations.HexLoadGivesAtMost256Words : Prop :=
  ∀ (lines : List Text) (ws : List Word), hexLoadLines lines = .ok ws → ws.length ≤ 256

/-- R119 (decision D24): an assembly or hex-load that fails leaves the whole machine as it was and reports its error; one
that succeeds is installed by the program load. -/
def Obligations.FailedBuildLeavesTheMachineAsItWas : Prop :=
  ∀ (s : State) (source : Text),
    (∀ e, assemble s.params source = .error e → s.install (assemble s.params source) = (s, some e)) ∧
      (∀ e, hexLoad source = .error e → s.install (hexLoad source) = (s, some e)) ∧
      (∀ ws, assemble s.params source = .ok ws → s.install (assemble s.params source) = (s.load ws, none)) ∧
      ∀ ws, hexLoad source = .ok ws → s.install (hexLoad source) = (s.load ws, none)
end

