-- ==== Sys2Proof/Laws/Codec.lean ====
section
/-! SUPPORT. The codec: the fields of a packed word, and that the register index and opcode maps are undone by `keyOf`
and `opcodeMap` under allowed parameters. -/

namespace Sys2Proof

@[simp] theorem highField_packWord (o : OpcodeValue) (b : Byte) : highField (packWord o b) = 0#3 := by
  apply BitVec.eq_of_getLsbD_eq
  intro i hi
  interval_cases i <;> simp [highField, packWord]

@[simp] theorem opcodeField_packWord (o : OpcodeValue) (b : Byte) : opcodeField (packWord o b) = o := by
  apply BitVec.eq_of_getLsbD_eq
  intro i hi
  interval_cases i <;> simp [opcodeField, packWord]

@[simp] theorem dataField_packWord (o : OpcodeValue) (b : Byte) : dataField (packWord o b) = b := by
  apply BitVec.eq_of_getLsbD_eq
  intro i hi
  interval_cases i <;> simp [dataField, packWord]

@[simp] theorem destField_packWord (o : OpcodeValue) (d s : Nibble) : destField (packWord o (packPair d s)) = d := by
  apply BitVec.eq_of_getLsbD_eq
  intro i hi
  interval_cases i <;> simp [destField, packWord, packPair]

@[simp] theorem srcField_packWord (o : OpcodeValue) (d s : Nibble) : srcField (packWord o (packPair d s)) = s := by
  apply BitVec.eq_of_getLsbD_eq
  intro i hi
  interval_cases i <;> simp [srcField, packWord, packPair]

/-- A data byte is its two nibbles. -/
theorem packPair_fields (w : Word) : packPair (destField w) (srcField w) = dataField w := by
  apply BitVec.eq_of_getLsbD_eq
  intro i hi
  interval_cases i <;> simp [packPair, destField, srcField, dataField]

/-- A word whose high bits are zero is its opcode and its data byte. -/
theorem packWord_fields (w : Word) (h : highField w = 0#3) : packWord (opcodeField w) (dataField w) = w := by
  apply BitVec.eq_of_getLsbD_eq
  intro i hi
  have h13 : ∀ j < 3, w.getLsbD (13 + j) = false := fun j hj => by
    simpa [highField, hj] using congrArg (fun v => v.getLsbD j) h
  have h0 := h13 0 (by decide)
  have h1 := h13 1 (by decide)
  have h2 := h13 2 (by decide)
  interval_cases i <;> simp_all [packWord, opcodeField, dataField]

/-- Searching a list for the preimage of an image finds it where the images are distinct. -/
theorem find_of_nodup_map {α β : Type} [DecidableEq β] (f : α → β) :
    ∀ (l : List α), (l.map f).Nodup → ∀ a ∈ l, l.find? (fun x => f x == f a) = some a
  | [], _, _, ha => absurd ha (by simp)
  | x :: l, hn, a, ha => by
    rw [List.map_cons, List.nodup_cons] at hn
    rcases List.mem_cons.mp ha with rfl | ha
    · simp
    · have hx : f x ≠ f a := fun he => hn.1 (he ▸ List.mem_map_of_mem ha)
      rw [List.find?_cons_of_neg (by simpa using hx)]
      exact find_of_nodup_map f l hn.2 a ha

/-- `keyOf` undoes `REG_INDEX` (R68). -/
theorem keyOf_regNibble {p : Params} (h : p.wellFormed) (r : Reg) : keyOf p (regNibble p r) = .resolved r := by
  have hf := find_of_nodup_map (regNibble p) Reg.all h.1 r (by cases r <;> decide)
  simp [keyOf, hf]

theorem keyOf_eq_resolved {p : Params} {n : Nibble} {r : Reg} (h : keyOf p n = .resolved r) : regNibble p r = n := by
  unfold keyOf at h
  split at h
  · rename_i q hq
    cases h
    simpa using List.find?_some hq
  · cases h

theorem isResolved_iff (k : Key) : k.isResolved = true ↔ ∃ r, k = .resolved r := by
  cases k <;> simp [Key.isResolved]

/-- Every opcode but CALL's and RET's is one of the fixed values, whatever the parameters (R10, R74). -/
theorem opcodeOf_fixed (p : Params) (o : Op) (hc : o ≠ .call) (hr : o ≠ .ret) :
    fixedOpcode (opcodeOf p o) = true ∧ opcodeOf p o = opcodeOf defaultParams o := by
  cases o <;> first | exact absurd rfl hc | exact absurd rfl hr | exact ⟨rfl, rfl⟩

theorem opcodeOf_default_injective : ∀ o ∈ Op.all, ∀ o' ∈ Op.all,
    opcodeOf defaultParams o = opcodeOf defaultParams o' → o = o' := by
  decide

theorem Op.mem_all (o : Op) : o ∈ Op.all := by
  cases o <;> decide

/-- Under allowed parameters no two mnemonics share an opcode (R10, R74). -/
theorem opcodeOf_injective {p : Params} (h : p.wellFormed) {o o' : Op} (he : opcodeOf p o = opcodeOf p o') :
    o = o' := by
  obtain ⟨-, hne, hc, hr⟩ := h
  by_cases oc : o = .call
  · subst oc
    by_cases oc' : o' = .call
    · exact oc'.symm
    by_cases or' : o' = .ret
    · subst or'
      exact absurd he hne
    · have := (opcodeOf_fixed p o' oc' or').1
      rw [← he] at this
      exact absurd (hc.symm.trans this) (by decide)
  by_cases or : o = .ret
  · subst or
    by_cases oc' : o' = .call
    · subst oc'
      exact absurd he.symm hne
    by_cases or' : o' = .ret
    · exact or'.symm
    · have := (opcodeOf_fixed p o' oc' or').1
      rw [← he] at this
      exact absurd (hr.symm.trans this) (by decide)
  obtain ⟨hf, hd⟩ := opcodeOf_fixed p o oc or
  by_cases oc' : o' = .call
  · subst oc'
    rw [he] at hf
    exact absurd (hc.symm.trans hf) (by decide)
  by_cases or' : o' = .ret
  · subst or'
    rw [he] at hf
    exact absurd (hr.symm.trans hf) (by decide)
  · have hd' := (opcodeOf_fixed p o' oc' or').2
    exact opcodeOf_default_injective o (Op.mem_all o) o' (Op.mem_all o') (hd ▸ hd' ▸ he)

/-- `opcodeMap` undoes `opcodeOf` (R74). -/
theorem opcodeMap_opcodeOf {p : Params} (h : p.wellFormed) (o : Op) : opcodeMap p (opcodeOf p o) = some o :=
  find_of_nodup_map (opcodeOf p) Op.all
    (List.Nodup.map (fun _ _ he => opcodeOf_injective h he) (by decide)) o (Op.mem_all o)

theorem opcodeMap_eq_some {p : Params} {v : OpcodeValue} {o : Op} (h : opcodeMap p v = some o) : opcodeOf p o = v := by
  simpa using List.find?_some h

theorem defaultParams_wellFormed : defaultParams.wellFormed := by decide

/-! ## What decode and encode do, said once -/

/-- A word decodes to an instruction exactly where its high bits are not rejected and its opcode is in the map; the
instruction is then that of its fields (R69). -/
theorem decode_eq_ok {p : Params} {w : Word} {i : Instr} :
    decode p w = .ok i ↔
      highBitsReject p w = false ∧
        ∃ o, opcodeMap p (opcodeField w) = some o ∧
          i = instrOf o (keyOf p (destField w)) (keyOf p (srcField w)) (dataField w) := by
  unfold decode decodeFields
  by_cases hr : highBitsReject p w = true
  · simp [hr]
  · cases ho : opcodeMap p (opcodeField w) with
    | none => simp [hr]
    | some o => simp [hr, eq_comm]

/-- An encoded instruction is the packing of its opcode with its data byte (R70). -/
theorem encode_eq_some {p : Params} {i : Instr} {w : Word} :
    encode p i = some w ↔ ∃ b, dataByte p i = some b ∧ w = packWord (opcodeOf p i.op) b := by
  simp [encode, eq_comm]

theorem pairByte_eq_some {p : Params} {d s : Key} {b : Byte} :
    pairByte p d s = some b ↔ ∃ q r, d = .resolved q ∧ s = .resolved r ∧ b = packPair (regNibble p q) (regNibble p r) := by
  cases d <;> cases s <;> simp [pairByte, eq_comm]

end Sys2Proof
end

