-- ==== Sys2Proof/Laws/State.lean ====
section
/-! SUPPORT. One lemma per field for each update of the state, so that no later proof unfolds a record update. -/

namespace Sys2Proof.Machine

/-! ## Reading the register file -/

@[simp] theorem State.reg_ac (s : State) : s.reg .ac = s.ac := rfl
@[simp] theorem State.reg_rs (s : State) : s.reg .rs = s.rs := rfl
@[simp] theorem State.reg_r0 (s : State) : s.reg .r0 = s.r0 := rfl
@[simp] theorem State.reg_r1 (s : State) : s.reg .r1 = s.r1 := rfl
@[simp] theorem State.reg_r2 (s : State) : s.reg .r2 = s.r2 := rfl
@[simp] theorem State.reg_r3 (s : State) : s.reg .r3 = s.r3 := rfl
@[simp] theorem State.reg_pc (s : State) : s.reg .pc = s.pc := rfl
@[simp] theorem State.reg_sp (s : State) : s.reg .sp = s.sp := rfl

/-! ## `setReg` -/

@[simp] theorem State.setReg_z (s : State) (r : Reg) (v : Byte) : (s.setReg r v).z = s.z := by
  cases r <;> rfl
@[simp] theorem State.setReg_ovf (s : State) (r : Reg) (v : Byte) : (s.setReg r v).ovf = s.ovf := by
  cases r <;> rfl
@[simp] theorem State.setReg_mem (s : State) (r : Reg) (v : Byte) : (s.setReg r v).mem = s.mem := by
  cases r <;> rfl
@[simp] theorem State.setReg_prog (s : State) (r : Reg) (v : Byte) : (s.setReg r v).prog = s.prog := by
  cases r <;> rfl
@[simp] theorem State.setReg_len (s : State) (r : Reg) (v : Byte) : (s.setReg r v).len = s.len := by
  cases r <;> rfl
@[simp] theorem State.setReg_params (s : State) (r : Reg) (v : Byte) : (s.setReg r v).params = s.params := by
  cases r <;> rfl
@[simp] theorem State.setReg_swInputs (s : State) (r : Reg) (v : Byte) : (s.setReg r v).swInputs = s.swInputs := by
  cases r <;> rfl
@[simp] theorem State.setReg_swCount (s : State) (r : Reg) (v : Byte) : (s.setReg r v).swCount = s.swCount := by
  cases r <;> rfl
@[simp] theorem State.setReg_reg (s : State) (r q : Reg) (v : Byte) :
    (s.setReg r v).reg q = if q = r then v else s.reg q := by
  cases r <;> cases q <;> rfl
theorem State.setReg_pc_of_ne (s : State) (r : Reg) (v : Byte) (h : r ≠ .pc) : (s.setReg r v).pc = s.pc := by
  cases r <;> first | rfl | exact absurd rfl h

/-! ## `memWrite` -/

@[simp] theorem State.memWrite_ac (s : State) (a v : Byte) : (s.memWrite a v).ac = s.ac := rfl
@[simp] theorem State.memWrite_rs (s : State) (a v : Byte) : (s.memWrite a v).rs = s.rs := rfl
@[simp] theorem State.memWrite_r0 (s : State) (a v : Byte) : (s.memWrite a v).r0 = s.r0 := rfl
@[simp] theorem State.memWrite_r1 (s : State) (a v : Byte) : (s.memWrite a v).r1 = s.r1 := rfl
@[simp] theorem State.memWrite_r2 (s : State) (a v : Byte) : (s.memWrite a v).r2 = s.r2 := rfl
@[simp] theorem State.memWrite_r3 (s : State) (a v : Byte) : (s.memWrite a v).r3 = s.r3 := rfl
@[simp] theorem State.memWrite_pc (s : State) (a v : Byte) : (s.memWrite a v).pc = s.pc := rfl
@[simp] theorem State.memWrite_sp (s : State) (a v : Byte) : (s.memWrite a v).sp = s.sp := rfl
@[simp] theorem State.memWrite_z (s : State) (a v : Byte) : (s.memWrite a v).z = s.z := rfl
@[simp] theorem State.memWrite_ovf (s : State) (a v : Byte) : (s.memWrite a v).ovf = s.ovf := rfl
@[simp] theorem State.memWrite_prog (s : State) (a v : Byte) : (s.memWrite a v).prog = s.prog := rfl
@[simp] theorem State.memWrite_len (s : State) (a v : Byte) : (s.memWrite a v).len = s.len := rfl
@[simp] theorem State.memWrite_params (s : State) (a v : Byte) : (s.memWrite a v).params = s.params := rfl
@[simp] theorem State.memWrite_swInputs (s : State) (a v : Byte) : (s.memWrite a v).swInputs = s.swInputs := rfl
@[simp] theorem State.memWrite_swCount (s : State) (a v : Byte) : (s.memWrite a v).swCount = s.swCount := rfl
@[simp] theorem State.memWrite_reg (s : State) (a v : Byte) (r : Reg) : (s.memWrite a v).reg r = s.reg r := by
  cases r <;> rfl

/-! ## `advance` -/

@[simp] theorem State.advance_ac (s : State) : s.advance.ac = s.ac := rfl
@[simp] theorem State.advance_rs (s : State) : s.advance.rs = s.rs := rfl
@[simp] theorem State.advance_r0 (s : State) : s.advance.r0 = s.r0 := rfl
@[simp] theorem State.advance_r1 (s : State) : s.advance.r1 = s.r1 := rfl
@[simp] theorem State.advance_r2 (s : State) : s.advance.r2 = s.r2 := rfl
@[simp] theorem State.advance_r3 (s : State) : s.advance.r3 = s.r3 := rfl
@[simp] theorem State.advance_sp (s : State) : s.advance.sp = s.sp := rfl
@[simp] theorem State.advance_z (s : State) : s.advance.z = s.z := rfl
@[simp] theorem State.advance_mem (s : State) : s.advance.mem = s.mem := rfl
@[simp] theorem State.advance_prog (s : State) : s.advance.prog = s.prog := rfl
@[simp] theorem State.advance_len (s : State) : s.advance.len = s.len := rfl
@[simp] theorem State.advance_params (s : State) : s.advance.params = s.params := rfl
@[simp] theorem State.advance_swInputs (s : State) : s.advance.swInputs = s.swInputs := rfl
@[simp] theorem State.advance_swCount (s : State) : s.advance.swCount = s.swCount := rfl
@[simp] theorem State.advance_pc (s : State) : s.advance.pc = s.pc + 1 := rfl
@[simp] theorem State.advance_ovf (s : State) : s.advance.ovf = s.ovfAfterAdvance := rfl
theorem State.advance_reg (s : State) (r : Reg) (h : r ≠ .pc) : s.advance.reg r = s.reg r := by
  cases r <;> first | rfl | exact absurd rfl h

/-! ## `dropSample` -/

@[simp] theorem State.dropSample_ac (s : State) : s.dropSample.ac = s.ac := by
  unfold State.dropSample; split <;> rfl
@[simp] theorem State.dropSample_rs (s : State) : s.dropSample.rs = s.rs := by
  unfold State.dropSample; split <;> rfl
@[simp] theorem State.dropSample_r0 (s : State) : s.dropSample.r0 = s.r0 := by
  unfold State.dropSample; split <;> rfl
@[simp] theorem State.dropSample_r1 (s : State) : s.dropSample.r1 = s.r1 := by
  unfold State.dropSample; split <;> rfl
@[simp] theorem State.dropSample_r2 (s : State) : s.dropSample.r2 = s.r2 := by
  unfold State.dropSample; split <;> rfl
@[simp] theorem State.dropSample_r3 (s : State) : s.dropSample.r3 = s.r3 := by
  unfold State.dropSample; split <;> rfl
@[simp] theorem State.dropSample_pc (s : State) : s.dropSample.pc = s.pc := by
  unfold State.dropSample; split <;> rfl
@[simp] theorem State.dropSample_sp (s : State) : s.dropSample.sp = s.sp := by
  unfold State.dropSample; split <;> rfl
@[simp] theorem State.dropSample_z (s : State) : s.dropSample.z = s.z := by
  unfold State.dropSample; split <;> rfl
@[simp] theorem State.dropSample_ovf (s : State) : s.dropSample.ovf = s.ovf := by
  unfold State.dropSample; split <;> rfl
@[simp] theorem State.dropSample_mem (s : State) : s.dropSample.mem = s.mem := by
  unfold State.dropSample; split <;> rfl
@[simp] theorem State.dropSample_prog (s : State) : s.dropSample.prog = s.prog := by
  unfold State.dropSample; split <;> rfl
@[simp] theorem State.dropSample_len (s : State) : s.dropSample.len = s.len := by
  unfold State.dropSample; split <;> rfl
@[simp] theorem State.dropSample_params (s : State) : s.dropSample.params = s.params := by
  unfold State.dropSample; split <;> rfl
@[simp] theorem State.dropSample_reg (s : State) (r : Reg) : s.dropSample.reg r = s.reg r := by
  cases r <;> simp

/-! ## `resetOp` -/

@[simp] theorem State.resetOp_ac (s : State) : s.resetOp.ac = 0x00 := rfl
@[simp] theorem State.resetOp_rs (s : State) : s.resetOp.rs = 0x00 := rfl
@[simp] theorem State.resetOp_r0 (s : State) : s.resetOp.r0 = 0x00 := rfl
@[simp] theorem State.resetOp_r1 (s : State) : s.resetOp.r1 = 0x00 := rfl
@[simp] theorem State.resetOp_r2 (s : State) : s.resetOp.r2 = 0x00 := rfl
@[simp] theorem State.resetOp_r3 (s : State) : s.resetOp.r3 = 0x00 := rfl
@[simp] theorem State.resetOp_pc (s : State) : s.resetOp.pc = 0x00 := rfl
@[simp] theorem State.resetOp_sp (s : State) : s.resetOp.sp = 0x00 := rfl
@[simp] theorem State.resetOp_z (s : State) : s.resetOp.z = false := rfl
@[simp] theorem State.resetOp_ovf (s : State) : s.resetOp.ovf = false := rfl
@[simp] theorem State.resetOp_mem (s : State) : s.resetOp.mem = [] := rfl
@[simp] theorem State.resetOp_prog (s : State) : s.resetOp.prog = s.prog := rfl
@[simp] theorem State.resetOp_len (s : State) : s.resetOp.len = s.len := rfl
@[simp] theorem State.resetOp_params (s : State) : s.resetOp.params = s.params := rfl
@[simp] theorem State.resetOp_swInputs (s : State) : s.resetOp.swInputs = s.swInputs := rfl
@[simp] theorem State.resetOp_swCount (s : State) : s.resetOp.swCount = s.swCount := rfl

/-! ## `load` -/

@[simp] theorem State.load_ac (s : State) (ws : List Word) : (s.load ws).ac = s.ac := by
  unfold State.load; split <;> rfl
@[simp] theorem State.load_rs (s : State) (ws : List Word) : (s.load ws).rs = s.rs := by
  unfold State.load; split <;> rfl
@[simp] theorem State.load_r0 (s : State) (ws : List Word) : (s.load ws).r0 = s.r0 := by
  unfold State.load; split <;> rfl
@[simp] theorem State.load_r1 (s : State) (ws : List Word) : (s.load ws).r1 = s.r1 := by
  unfold State.load; split <;> rfl
@[simp] theorem State.load_r2 (s : State) (ws : List Word) : (s.load ws).r2 = s.r2 := by
  unfold State.load; split <;> rfl
@[simp] theorem State.load_r3 (s : State) (ws : List Word) : (s.load ws).r3 = s.r3 := by
  unfold State.load; split <;> rfl
@[simp] theorem State.load_sp (s : State) (ws : List Word) : (s.load ws).sp = s.sp := by
  unfold State.load; split <;> rfl
@[simp] theorem State.load_z (s : State) (ws : List Word) : (s.load ws).z = s.z := by
  unfold State.load; split <;> rfl
@[simp] theorem State.load_mem (s : State) (ws : List Word) : (s.load ws).mem = s.mem := by
  unfold State.load; split <;> rfl
@[simp] theorem State.load_params (s : State) (ws : List Word) : (s.load ws).params = s.params := by
  unfold State.load; split <;> rfl
@[simp] theorem State.load_swInputs (s : State) (ws : List Word) : (s.load ws).swInputs = s.swInputs := by
  unfold State.load; split <;> rfl
@[simp] theorem State.load_swCount (s : State) (ws : List Word) : (s.load ws).swCount = s.swCount := by
  unfold State.load; split <;> rfl
theorem State.load_too_long (s : State) (ws : List Word) (h : 256 < ws.length) : s.load ws = s := by
  simp [State.load, Nat.not_le.mpr h]
theorem State.load_fits (s : State) (ws : List Word) (h : ws.length ≤ 256) :
    s.load ws =
      { s with prog := progWriteFrom 0 ws s.prog, len := ⟨ws.length, by omega⟩, pc := 0x00, ovf := false } := by
  simp [State.load, h]

/-! ## `supplySwitches` -/

@[simp] theorem State.supplySwitches_ac (s : State) (vs : List Byte) : (s.supplySwitches vs).ac = s.ac := rfl
@[simp] theorem State.supplySwitches_rs (s : State) (vs : List Byte) : (s.supplySwitches vs).rs = s.rs := rfl
@[simp] theorem State.supplySwitches_r0 (s : State) (vs : List Byte) : (s.supplySwitches vs).r0 = s.r0 := rfl
@[simp] theorem State.supplySwitches_r1 (s : State) (vs : List Byte) : (s.supplySwitches vs).r1 = s.r1 := rfl
@[simp] theorem State.supplySwitches_r2 (s : State) (vs : List Byte) : (s.supplySwitches vs).r2 = s.r2 := rfl
@[simp] theorem State.supplySwitches_r3 (s : State) (vs : List Byte) : (s.supplySwitches vs).r3 = s.r3 := rfl
@[simp] theorem State.supplySwitches_pc (s : State) (vs : List Byte) : (s.supplySwitches vs).pc = s.pc := rfl
@[simp] theorem State.supplySwitches_sp (s : State) (vs : List Byte) : (s.supplySwitches vs).sp = s.sp := rfl
@[simp] theorem State.supplySwitches_z (s : State) (vs : List Byte) : (s.supplySwitches vs).z = s.z := rfl
@[simp] theorem State.supplySwitches_ovf (s : State) (vs : List Byte) : (s.supplySwitches vs).ovf = s.ovf := rfl
@[simp] theorem State.supplySwitches_mem (s : State) (vs : List Byte) : (s.supplySwitches vs).mem = s.mem := rfl
@[simp] theorem State.supplySwitches_prog (s : State) (vs : List Byte) : (s.supplySwitches vs).prog = s.prog := rfl
@[simp] theorem State.supplySwitches_len (s : State) (vs : List Byte) : (s.supplySwitches vs).len = s.len := rfl
@[simp] theorem State.supplySwitches_params (s : State) (vs : List Byte) : (s.supplySwitches vs).params = s.params := rfl
@[simp] theorem State.supplySwitches_swCount (s : State) (vs : List Byte) : (s.supplySwitches vs).swCount = s.swCount := rfl
@[simp] theorem State.supplySwitches_swInputs (s : State) (vs : List Byte) : (s.supplySwitches vs).swInputs = vs := rfl

end Sys2Proof.Machine
end

