-- ==== Sys2Proof/Laws/Store.lean ====
section
/-! SUPPORT. The sparse stores behind the data memory and the program store: what a read gives after a write, and that
every write keeps the canonical form. -/

namespace Sys2Proof.Machine

variable {w : Nat}

@[simp] theorem sparseRead_nil (d : BitVec w) (a : Nat) : sparseRead d [] a = d := rfl

theorem sparseRead_cons (d : BitVec w) (c : Nat × BitVec w) (m : List (Nat × BitVec w)) (a : Nat) :
    sparseRead d (c :: m) a = if c.1 = a then c.2 else sparseRead d m a := rfl

theorem sparseRead_of_not_mem (d : BitVec w) (m : List (Nat × BitVec w)) (a : Nat) (h : ∀ c ∈ m, c.1 ≠ a) :
    sparseRead d m a = d := by
  induction m with
  | nil => rfl
  | cons c m ih =>
    rw [sparseRead_cons, if_neg (h c (by simp)), ih (fun c' hc' => h c' (by simp [hc']))]

theorem sparseRead_drop_same (d : BitVec w) (m : List (Nat × BitVec w)) (a : Nat) :
    sparseRead d (sparseDrop a m) a = d := by
  induction m with
  | nil => rfl
  | cons c m ih =>
    by_cases hc : c.1 = a <;> simp [sparseDrop, hc, ih, sparseRead_cons]

theorem sparseRead_drop_other (d : BitVec w) (m : List (Nat × BitVec w)) (a b : Nat) (h : b ≠ a) :
    sparseRead d (sparseDrop a m) b = sparseRead d m b := by
  induction m with
  | nil => rfl
  | cons c m ih =>
    by_cases hc : c.1 = a
    · simp [sparseDrop, hc, ih, sparseRead_cons, Ne.symm h]
    · simp [sparseDrop, hc, ih, sparseRead_cons]

theorem mem_sparseDrop {a : Nat} {c : Nat × BitVec w} {m : List (Nat × BitVec w)} :
    c ∈ sparseDrop a m ↔ c ∈ m ∧ c.1 ≠ a := by
  induction m with
  | nil => simp [sparseDrop]
  | cons x m ih =>
    by_cases hx : x.1 = a
    · simp only [sparseDrop, hx, if_true, ih, List.mem_cons]
      constructor
      · rintro ⟨h1, h2⟩
        exact ⟨.inr h1, h2⟩
      · rintro ⟨rfl | h1, h2⟩
        · exact absurd hx h2
        · exact ⟨h1, h2⟩
    · simp only [sparseDrop, hx, if_false, ih, List.mem_cons]
      constructor
      · rintro (rfl | ⟨h1, h2⟩)
        · exact ⟨.inl rfl, hx⟩
        · exact ⟨.inr h1, h2⟩
      · rintro ⟨rfl | h1, h2⟩
        · exact .inl rfl
        · exact .inr ⟨h1, h2⟩

theorem mem_sparseInsert {a : Nat} {v : BitVec w} {c : Nat × BitVec w} {m : List (Nat × BitVec w)} :
    c ∈ sparseInsert a v m ↔ c = (a, v) ∨ c ∈ m := by
  induction m with
  | nil => simp [sparseInsert]
  | cons x m ih =>
    by_cases hx : a < x.1
    · simp [sparseInsert, hx]
    · simp only [sparseInsert, hx, if_false, List.mem_cons, ih]
      constructor
      · rintro (h | h | h)
        · exact .inr (.inl h)
        · exact .inl h
        · exact .inr (.inr h)
      · rintro (h | h | h)
        · exact .inr (.inl h)
        · exact .inl h
        · exact .inr (.inr h)

theorem sparseRead_insert (d v : BitVec w) (m : List (Nat × BitVec w)) (a b : Nat) (h : ∀ c ∈ m, c.1 ≠ a) :
    sparseRead d (sparseInsert a v m) b = if b = a then v else sparseRead d m b := by
  induction m with
  | nil =>
    by_cases hb : b = a
    · simp [sparseInsert, sparseRead_cons, hb]
    · simp [sparseInsert, sparseRead_cons, hb, Ne.symm hb]
  | cons c m ih =>
    have hc : c.1 ≠ a := h c (by simp)
    have ih' := ih (fun c' hc' => h c' (by simp [hc']))
    by_cases hlt : a < c.1
    · by_cases hb : b = a
      · simp [sparseInsert, hlt, sparseRead_cons, hb]
      · simp [sparseInsert, hlt, sparseRead_cons, hb, Ne.symm hb]
    · by_cases hb : b = a
      · subst hb
        simp [sparseInsert, hlt, sparseRead_cons, hc, ih']
      · simp [sparseInsert, hlt, sparseRead_cons, ih', hb]

/-- Everything a write does to reads: the written address reads the value, every other address reads as before. `d` is
what the written address reads as when unlisted. -/
theorem sparseRead_write (d d' v : BitVec w) (m : List (Nat × BitVec w)) (a b : Nat) (hd : b = a → d' = d) :
    sparseRead d' (sparseWrite d m a v) b = if b = a then v else sparseRead d' m b := by
  unfold sparseWrite
  by_cases hv : v = d
  · by_cases hb : b = a
    · subst hb
      simp [hv, hd rfl, sparseRead_drop_same]
    · simp [hv, hb, sparseRead_drop_other _ _ _ _ hb]
  · rw [if_neg hv, sparseRead_insert _ _ _ _ _ (fun c hc => (mem_sparseDrop.mp hc).2)]
    by_cases hb : b = a
    · simp [hb]
    · simp [hb, sparseRead_drop_other _ _ _ _ hb]

theorem sparseDrop_pairwise {a : Nat} {m : List (Nat × BitVec w)} (h : m.Pairwise (fun c c' => c.1 < c'.1)) :
    (sparseDrop a m).Pairwise (fun c c' => c.1 < c'.1) := by
  induction m with
  | nil => exact List.Pairwise.nil
  | cons x m ih =>
    rw [List.pairwise_cons] at h
    by_cases hx : x.1 = a
    · simpa [sparseDrop, hx] using ih h.2
    · simp only [sparseDrop, hx, if_false, List.pairwise_cons]
      exact ⟨fun c hc => h.1 c (mem_sparseDrop.mp hc).1, ih h.2⟩

theorem sparseInsert_pairwise {a : Nat} {v : BitVec w} {m : List (Nat × BitVec w)}
    (h : m.Pairwise (fun c c' => c.1 < c'.1)) (hne : ∀ c ∈ m, c.1 ≠ a) :
    (sparseInsert a v m).Pairwise (fun c c' => c.1 < c'.1) := by
  induction m with
  | nil => exact List.pairwise_singleton _ _
  | cons x m ih =>
    have hp := List.pairwise_cons.mp h
    by_cases hx : a < x.1
    · simp only [sparseInsert, hx, if_true, List.pairwise_cons]
      refine ⟨fun c hc => ?_, hp⟩
      rcases List.mem_cons.mp hc with rfl | hc
      · exact hx
      · exact Nat.lt_trans hx (hp.1 c hc)
    · simp only [sparseInsert, hx, if_false, List.pairwise_cons]
      refine ⟨fun c hc => ?_, ih hp.2 (fun c hc => hne c (by simp [hc]))⟩
      rcases mem_sparseInsert.mp hc with rfl | hc
      · exact Nat.lt_of_le_of_ne (Nat.not_lt.mp hx) (hne x (by simp))
      · exact hp.1 c hc

/-- A write keeps the canonical form. -/
theorem sparseWrite_wf {size : Nat} {dflt : Nat → BitVec w} {m : List (Nat × BitVec w)} (h : sparseWf size dflt m)
    {a : Nat} (ha : a < size) (v : BitVec w) : sparseWf size dflt (sparseWrite (dflt a) m a v) := by
  unfold sparseWrite
  by_cases hv : v = dflt a
  · rw [if_pos hv]
    exact ⟨sparseDrop_pairwise h.1, fun c hc => h.2 c (mem_sparseDrop.mp hc).1⟩
  · rw [if_neg hv]
    refine ⟨sparseInsert_pairwise (sparseDrop_pairwise h.1) (fun c hc => (mem_sparseDrop.mp hc).2), fun c hc => ?_⟩
    rcases mem_sparseInsert.mp hc with rfl | hc
    · exact ⟨ha, hv⟩
    · exact h.2 c (mem_sparseDrop.mp hc).1

theorem sparseWf_nil (size : Nat) (dflt : Nat → BitVec w) : sparseWf size dflt [] :=
  ⟨List.Pairwise.nil, fun _ hc => absurd hc (by simp)⟩

end Sys2Proof.Machine
end

