-- ==== Sys2Proof/Laws/Ops.lean ====
section
/-! SUPPORT. What each shared operation does, said once: memory reads and writes, the end of a Step, and the Steps that
write one register, the program counter, a memory cell or nothing. -/

namespace Sys2Proof.Machine

/-! ## Memory and program store -/

theorem State.memRead_eq (s : State) (a : Byte) : s.memRead a = s.cell (cellOf a) := rfl

/-- A write puts the value in the cell it names and leaves every other cell as it was (R50). -/
theorem State.cell_memWrite (s : State) (a v : Byte) (c : Cell) :
    (s.memWrite a v).cell c = if c = cellOf a then v else s.cell c := by
  have h := sparseRead_write (memInitAt s.params (cellOf a).toNat) (memInitAt s.params c.toNat) v s.mem
    (cellOf a).toNat c.toNat (fun h => by rw [h])
  simpa [State.cell, State.memWrite, BitVec.toNat_inj] using h

theorem State.memRead_memWrite (s : State) (a b v : Byte) :
    (s.memWrite a v).memRead b = if cellOf b = cellOf a then v else s.memRead b := by
  simp [State.memRead_eq, State.cell_memWrite]

theorem State.memRead_congr {s t : State} (hm : t.mem = s.mem) (hp : t.params = s.params) (a : Byte) :
    t.memRead a = s.memRead a := by
  simp [State.memRead, State.cell, hm, hp]

/-- Every memory write keeps the canonical form. -/
theorem State.memWrite_wf {s : State} (h : Memory.wf s.params s.mem) (a v : Byte) :
    Memory.wf s.params (s.memWrite a v).mem :=
  sparseWrite_wf h (cellOf a).isLt v

theorem reset_mem_wf : Memory.wf State.reset.params State.reset.mem := sparseWf_nil _ _

/-- Every write of the program store keeps the canonical form. -/
theorem progWrite_wf {m : ProgramStore} (h : ProgramStore.wf m) {i : Nat} (hi : i < 256) (w : Word) :
    ProgramStore.wf (progWrite m i w) :=
  sparseWrite_wf h hi w

theorem progWriteFrom_wf {ws : List Word} {i : Nat} {m : ProgramStore} (h : ProgramStore.wf m)
    (hi : i + ws.length ≤ 256) : ProgramStore.wf (progWriteFrom i ws m) := by
  induction ws generalizing i m with
  | nil => exact h
  | cons w ws ih =>
    simp only [List.length_cons] at hi
    exact ih (progWrite_wf h (by omega) w) (by omega)

/-- What a run of program writes leaves: the words at their addresses, every other address as it was (R134). -/
theorem progWriteFrom_read (ws : List Word) (i : Nat) (m : ProgramStore) (a : Nat) :
    sparseRead (progInit a) (progWriteFrom i ws m) a =
      if h : i ≤ a ∧ a - i < ws.length then ws[a - i]'h.2 else sparseRead (progInit a) m a := by
  induction ws generalizing i m with
  | nil => simp [progWriteFrom]
  | cons w ws ih =>
    have hw : sparseRead (progInit a) (progWrite m i w) a = if a = i then w else sparseRead (progInit a) m a :=
      sparseRead_write _ _ _ _ _ _ (fun _ => rfl)
    rw [progWriteFrom, ih, hw]
    by_cases h1 : i + 1 ≤ a
    · have h2 : a - i = (a - (i + 1)) + 1 := by omega
      have h3 : a ≠ i := by omega
      have h4 : i ≤ a := by omega
      simp only [h2, h1, h3, h4, List.length_cons, Nat.add_lt_add_iff_right, List.getElem_cons_succ,
        true_and, if_false]
    · by_cases h5 : a = i
      · subst h5
        simp
      · have h6 : ¬ i ≤ a := by omega
        simp [h1, h5, h6]

/-! ## The end of a Step -/

@[simp] theorem StepScratch.finish_z (c : StepScratch) : c.finish.z = c.machine.z := by
  unfold StepScratch.finish; split <;> rfl
@[simp] theorem StepScratch.finish_mem (c : StepScratch) : c.finish.mem = c.machine.mem := by
  unfold StepScratch.finish; split <;> rfl
@[simp] theorem StepScratch.finish_prog (c : StepScratch) : c.finish.prog = c.machine.prog := by
  unfold StepScratch.finish; split <;> rfl
@[simp] theorem StepScratch.finish_len (c : StepScratch) : c.finish.len = c.machine.len := by
  unfold StepScratch.finish; split <;> rfl
@[simp] theorem StepScratch.finish_params (c : StepScratch) : c.finish.params = c.machine.params := by
  unfold StepScratch.finish; split <;> rfl
@[simp] theorem StepScratch.finish_swInputs (c : StepScratch) : c.finish.swInputs = c.machine.swInputs := by
  unfold StepScratch.finish; split <;> rfl
@[simp] theorem StepScratch.finish_swCount (c : StepScratch) : c.finish.swCount = c.machine.swCount := by
  unfold StepScratch.finish; split <;> rfl
theorem StepScratch.finish_reg (c : StepScratch) (r : Reg) (h : r ≠ .pc) : c.finish.reg r = c.machine.reg r := by
  unfold StepScratch.finish; split <;> cases r <;> first | rfl | exact absurd rfl h

@[simp] theorem StepScratch.write_z (c : StepScratch) (r : Reg) (v : Byte) :
    (c.write r v).machine.z = c.machine.z := by
  unfold StepScratch.write; split <;> simp
@[simp] theorem StepScratch.write_mem (c : StepScratch) (r : Reg) (v : Byte) :
    (c.write r v).machine.mem = c.machine.mem := by
  unfold StepScratch.write; split <;> simp
@[simp] theorem StepScratch.write_prog (c : StepScratch) (r : Reg) (v : Byte) :
    (c.write r v).machine.prog = c.machine.prog := by
  unfold StepScratch.write; split <;> simp
@[simp] theorem StepScratch.write_len (c : StepScratch) (r : Reg) (v : Byte) :
    (c.write r v).machine.len = c.machine.len := by
  unfold StepScratch.write; split <;> simp
@[simp] theorem StepScratch.write_params (c : StepScratch) (r : Reg) (v : Byte) :
    (c.write r v).machine.params = c.machine.params := by
  unfold StepScratch.write; split <;> simp
@[simp] theorem StepScratch.write_swInputs (c : StepScratch) (r : Reg) (v : Byte) :
    (c.write r v).machine.swInputs = c.machine.swInputs := by
  unfold StepScratch.write; split <;> simp
@[simp] theorem StepScratch.write_swCount (c : StepScratch) (r : Reg) (v : Byte) :
    (c.write r v).machine.swCount = c.machine.swCount := by
  unfold StepScratch.write; split <;> simp
@[simp] theorem State.beginStep_machine (s : State) : s.beginStep.machine = s := rfl
@[simp] theorem State.beginStep_newPC (s : State) : s.beginStep.newPC = none := rfl

/-! ## The shapes of a Step -/

theorem noOp_eq_advance (s : State) : noOp s = s.advance := rfl

/-- A no-op Step changes nothing besides the counter's advance (R75, R76). -/
theorem noOp_onlyAdvanced (s : State) : OnlyAdvanced s (noOp s) :=
  ⟨fun r h => State.advance_reg s r h, rfl, ⟨rfl, rfl⟩, fun _ => rfl, ⟨rfl, rfl, rfl⟩, ⟨rfl, rfl⟩⟩

theorem jumpStep_eq (s : State) (t : Byte) : jumpStep s t = { s with pc := t } := rfl

theorem writeRegStep_pc (s : State) (v : Byte) : writeRegStep s .pc v = { s with pc := v } := rfl

theorem writeRegStep_of_ne (s : State) (d : Reg) (v : Byte) (h : d ≠ .pc) :
    writeRegStep s d v = (s.setReg d v).advance := by
  simp [writeRegStep, StepScratch.write, h, StepScratch.finish]

/-- A Step that writes one register: what it does to the registers and the counter. -/
theorem writeRegStep_wroteOnly (s : State) (d : Reg) (v : Byte) : WroteOnly s (writeRegStep s d v) d v := by
  by_cases h : d = .pc
  · subst h
    refine ⟨fun r hr => ?_, fun _ => ⟨rfl, rfl⟩, fun h => absurd rfl h⟩
    rw [if_neg hr, writeRegStep_pc]
    cases r <;> first | rfl | exact absurd rfl hr
  · rw [writeRegStep_of_ne s d v h]
    refine ⟨fun r hr => ?_, fun hd => absurd hd h, fun _ => ⟨?_, ?_⟩⟩
    · rw [State.advance_reg _ r hr, State.setReg_reg]
    · rw [State.advance_pc, State.setReg_pc_of_ne s d v h]
    · simp [State.ovfAfterAdvance, State.setReg_pc_of_ne s d v h]

@[simp] theorem writeRegStep_z (s : State) (d : Reg) (v : Byte) : (writeRegStep s d v).z = s.z := by
  simp [writeRegStep]
@[simp] theorem writeRegStep_mem (s : State) (d : Reg) (v : Byte) : (writeRegStep s d v).mem = s.mem := by
  simp [writeRegStep]
@[simp] theorem writeRegStep_prog (s : State) (d : Reg) (v : Byte) : (writeRegStep s d v).prog = s.prog := by
  simp [writeRegStep]
@[simp] theorem writeRegStep_len (s : State) (d : Reg) (v : Byte) : (writeRegStep s d v).len = s.len := by
  simp [writeRegStep]
@[simp] theorem writeRegStep_params (s : State) (d : Reg) (v : Byte) : (writeRegStep s d v).params = s.params := by
  simp [writeRegStep]
@[simp] theorem writeRegStep_swInputs (s : State) (d : Reg) (v : Byte) : (writeRegStep s d v).swInputs = s.swInputs := by
  simp [writeRegStep]
@[simp] theorem writeRegStep_swCount (s : State) (d : Reg) (v : Byte) : (writeRegStep s d v).swCount = s.swCount := by
  simp [writeRegStep]

theorem writeRegStep_sameMemory (s : State) (d : Reg) (v : Byte) : SameMemory s (writeRegStep s d v) :=
  State.memRead_congr (by simp) (by simp)

theorem writeRegStep_sameProgram (s : State) (d : Reg) (v : Byte) : SameProgram s (writeRegStep s d v) := by
  simp [SameProgram]

/-! ## The write-back of an ALU instruction -/

/-- The write-back is a one-register Step with Z set on top of it (R92). -/
theorem aluWriteBack_eq (s : State) (d : Reg) (r : Byte) :
    aluWriteBack s d r = { writeRegStep s d r with z := zeroFlag r } := by
  cases d <;> rfl

theorem aluWriteBack_wroteOnly (s : State) (d : Reg) (r : Byte) : WroteOnly s (aluWriteBack s d r) d r := by
  rw [aluWriteBack_eq]
  obtain ⟨h1, h2, h3⟩ := writeRegStep_wroteOnly s d r
  refine ⟨fun q hq => ?_, h2, h3⟩
  rw [← h1 q hq]
  cases q <;> rfl

@[simp] theorem aluWriteBack_z (s : State) (d : Reg) (r : Byte) : (aluWriteBack s d r).z = zeroFlag r := by
  rw [aluWriteBack_eq]

@[simp] theorem aluWriteBack_mem (s : State) (d : Reg) (r : Byte) : (aluWriteBack s d r).mem = s.mem := by
  simp [aluWriteBack_eq]
@[simp] theorem aluWriteBack_prog (s : State) (d : Reg) (r : Byte) : (aluWriteBack s d r).prog = s.prog := by
  simp [aluWriteBack_eq]
@[simp] theorem aluWriteBack_len (s : State) (d : Reg) (r : Byte) : (aluWriteBack s d r).len = s.len := by
  simp [aluWriteBack_eq]
@[simp] theorem aluWriteBack_params (s : State) (d : Reg) (r : Byte) : (aluWriteBack s d r).params = s.params := by
  simp [aluWriteBack_eq]
@[simp] theorem aluWriteBack_swInputs (s : State) (d : Reg) (r : Byte) : (aluWriteBack s d r).swInputs = s.swInputs := by
  simp [aluWriteBack_eq]
@[simp] theorem aluWriteBack_swCount (s : State) (d : Reg) (r : Byte) : (aluWriteBack s d r).swCount = s.swCount := by
  simp [aluWriteBack_eq]

/-! ## The store Step -/

/-- The Step of STORE: the write, then the advance (R116). -/
theorem storeStep_eq (s : State) (a v : Byte) : (s.beginStep.memWrite a v).finish = (s.memWrite a v).advance := rfl

end Sys2Proof.Machine
end

