-- ==== Sys2Proof/Laws/PerInstr.lean ====
section
/-! SUPPORT. The family EncodeLayout, one lemma per instruction: encode answers a word exactly for the well-formed
instructions, and that word has bits 15:13 zero and the instruction's opcode in bits 12:8 (R62, R70). -/

namespace Sys2Proof.Laws

/-- What the encoder writes for an instruction. -/
def EncodeLayout.Statement (i : Instr) : Prop :=
  ∀ p : Params, (encode p i).isSome = i.wellFormed ∧
    ∀ w, encode p i = some w → highField w = 0#3 ∧ opcodeField w = opcodeOf p i.op

/-- An encoded word has the layout of R70, whatever the instruction. -/
theorem encodeLayout_word {p : Params} {i : Instr} {w : Word} (h : encode p i = some w) :
    highField w = 0#3 ∧ opcodeField w = opcodeOf p i.op := by
  obtain ⟨b, -, rfl⟩ := encode_eq_some.mp h
  simp

theorem pairByte_isSome (p : Params) (d s : Key) : (pairByte p d s).isSome = (d.isResolved && s.isResolved) := by
  cases d <;> cases s <;> rfl

theorem pairByte_self_isSome (p : Params) (d : Key) : (pairByte p d d).isSome = d.isResolved := by
  cases d <;> rfl

theorem EncodeLayout.add (d s : Key) : EncodeLayout.Statement (.add d s) := fun p =>
  ⟨by simp [encode, dataByte, Instr.wellFormed, pairByte_isSome], fun _ h => encodeLayout_word h⟩

theorem EncodeLayout.sub (d s : Key) : EncodeLayout.Statement (.sub d s) := fun p =>
  ⟨by simp [encode, dataByte, Instr.wellFormed, pairByte_isSome], fun _ h => encodeLayout_word h⟩

theorem EncodeLayout.inc (d : Key) : EncodeLayout.Statement (.inc d) := fun p =>
  ⟨by simp [encode, dataByte, Instr.wellFormed, pairByte_self_isSome], fun _ h => encodeLayout_word h⟩

theorem EncodeLayout.dec (d : Key) : EncodeLayout.Statement (.dec d) := fun p =>
  ⟨by simp [encode, dataByte, Instr.wellFormed, pairByte_self_isSome], fun _ h => encodeLayout_word h⟩

theorem EncodeLayout.cpl (d : Key) : EncodeLayout.Statement (.cpl d) := fun p =>
  ⟨by simp [encode, dataByte, Instr.wellFormed, pairByte_self_isSome], fun _ h => encodeLayout_word h⟩

theorem EncodeLayout.and (d s : Key) : EncodeLayout.Statement (.and d s) := fun p =>
  ⟨by simp [encode, dataByte, Instr.wellFormed, pairByte_isSome], fun _ h => encodeLayout_word h⟩

theorem EncodeLayout.or (d s : Key) : EncodeLayout.Statement (.or d s) := fun p =>
  ⟨by simp [encode, dataByte, Instr.wellFormed, pairByte_isSome], fun _ h => encodeLayout_word h⟩

theorem EncodeLayout.xor (d s : Key) : EncodeLayout.Statement (.xor d s) := fun p =>
  ⟨by simp [encode, dataByte, Instr.wellFormed, pairByte_isSome], fun _ h => encodeLayout_word h⟩

theorem EncodeLayout.rr (d : Key) : EncodeLayout.Statement (.rr d) := fun p =>
  ⟨by simp [encode, dataByte, Instr.wellFormed, pairByte_self_isSome], fun _ h => encodeLayout_word h⟩

theorem EncodeLayout.rl (d : Key) : EncodeLayout.Statement (.rl d) := fun p =>
  ⟨by simp [encode, dataByte, Instr.wellFormed, pairByte_self_isSome], fun _ h => encodeLayout_word h⟩

theorem EncodeLayout.call (b : Byte) : EncodeLayout.Statement (.call b) := fun _ =>
  ⟨rfl, fun _ h => encodeLayout_word h⟩

theorem EncodeLayout.ret : EncodeLayout.Statement .ret := fun _ =>
  ⟨rfl, fun _ h => encodeLayout_word h⟩

theorem EncodeLayout.jz (b : Byte) : EncodeLayout.Statement (.jz b) := fun _ =>
  ⟨rfl, fun _ h => encodeLayout_word h⟩

theorem EncodeLayout.store (d s : Key) : EncodeLayout.Statement (.store d s) := fun p =>
  ⟨by simp [encode, dataByte, Instr.wellFormed, pairByte_isSome], fun _ h => encodeLayout_word h⟩

theorem EncodeLayout.load (d s : Key) : EncodeLayout.Statement (.load d s) := fun p =>
  ⟨by simp [encode, dataByte, Instr.wellFormed, pairByte_isSome], fun _ h => encodeLayout_word h⟩

theorem EncodeLayout.output : EncodeLayout.Statement .output := fun _ =>
  ⟨rfl, fun _ h => encodeLayout_word h⟩

theorem EncodeLayout.input : EncodeLayout.Statement .input := fun _ =>
  ⟨rfl, fun _ h => encodeLayout_word h⟩

theorem EncodeLayout.set (b : Byte) : EncodeLayout.Statement (.set b) := fun _ =>
  ⟨rfl, fun _ h => encodeLayout_word h⟩

theorem EncodeLayout.jmp (b : Byte) : EncodeLayout.Statement (.jmp b) := fun _ =>
  ⟨rfl, fun _ h => encodeLayout_word h⟩

theorem EncodeLayout.mov (d s : Key) : EncodeLayout.Statement (.mov d s) := fun p =>
  ⟨by simp [encode, dataByte, Instr.wellFormed, pairByte_isSome], fun _ h => encodeLayout_word h⟩

end Sys2Proof.Laws
end

