-- ==== Sys2Proof/Laws/Step.lean ====
section
/-! SUPPORT. What one instruction and one Step can do, said once: the shapes that the next state can have. Invariants
are derived from these, not by unfolding the meanings. -/

namespace Sys2Proof.Machine

/-- The shapes of the state an instruction leaves. -/
inductive ExecShape (i : Instr) (s : State) : State → Prop
  | noOp (h : i.wellFormed = false ∨ i.op = .jz) : ExecShape i s (noOp s)
  | alu (d : Reg) (r : Byte) (h : i.aluDest = some d) : ExecShape i s (aluWriteBack s d r)
  | write (d : Reg) (v : Byte) (h : i.op = .mov ∨ i.op = .load ∨ i.op = .set ∨ i.op = .output) :
      ExecShape i s (writeRegStep s d v)
  | jump (v : Byte) (h : i.op = .jmp ∨ i.op = .jz ∨ i.op = .ret) : ExecShape i s (jumpStep s v)
  | call (v : Byte) (h : i.op = .call) : ExecShape i s (jumpStep (s.setReg .sp s.nextPc) v)
  | store (a v : Byte) (h : i.op = .store) : ExecShape i s (s.memWrite a v).advance
  | input (h : i.op = .input) : ExecShape i s (writeRegStep s.dropSample .ac s.switchSample)

theorem aluPair_shape {i : Instr} {op : AluOp} {d e : Key} {s t : State} (h : aluPair op d e s = .next t)
    (hw : i.wellFormed = (d.isResolved && e.isResolved))
    (hd : ∀ q r, d = .resolved q → e = .resolved r → i.aluDest = some q) : ExecShape i s t := by
  cases d with
  | unresolved =>
    cases h
    exact .noOp (.inl (by simp [hw, Key.isResolved]))
  | resolved q =>
    cases e with
    | unresolved =>
      cases h
      exact .noOp (.inl (by simp [hw, Key.isResolved]))
    | resolved r =>
      cases h
      exact .alu q _ (hd q r rfl rfl)

theorem aluSingle_shape {i : Instr} {op : AluOp} {d : Key} {s t : State} (h : aluSingle op d s = .next t)
    (hw : i.wellFormed = d.isResolved) (hd : ∀ q, d = .resolved q → i.aluDest = some q) : ExecShape i s t := by
  cases d with
  | unresolved =>
    cases h
    exact .noOp (.inl (by simp [hw, Key.isResolved]))
  | resolved q =>
    cases h
    exact .alu q _ (hd q rfl)

/-- Everything an instruction can do, by its shape. -/
theorem exec_shape {i : Instr} {s t : State} (h : exec i s = .next t) : ExecShape i s t := by
  cases i with
  | add d e => exact aluPair_shape h rfl (by rintro q r rfl rfl; rfl)
  | sub d e => exact aluPair_shape h rfl (by rintro q r rfl rfl; rfl)
  | and d e => exact aluPair_shape h rfl (by rintro q r rfl rfl; rfl)
  | or d e => exact aluPair_shape h rfl (by rintro q r rfl rfl; rfl)
  | xor d e => exact aluPair_shape h rfl (by rintro q r rfl rfl; rfl)
  | inc d => exact aluSingle_shape h rfl (by rintro q rfl; rfl)
  | dec d => exact aluSingle_shape h rfl (by rintro q rfl; rfl)
  | cpl d => exact aluSingle_shape h rfl (by rintro q rfl; rfl)
  | rr d => exact aluSingle_shape h rfl (by rintro q rfl; rfl)
  | rl d => exact aluSingle_shape h rfl (by rintro q rfl; rfl)
  | call v =>
    cases h
    exact .call v rfl
  | ret =>
    cases h
    exact .jump _ (.inr (.inr rfl))
  | jz v =>
    cases hz : s.z <;> simp only [exec, execJz, hz, if_true, Bool.false_eq_true, if_false] at h <;> cases h
    · exact .noOp (.inr rfl)
    · exact .jump _ (.inr (.inl rfl))
  | store d e =>
    cases d <;> cases e <;> cases h
    · exact .store _ _ rfl
    · exact .noOp (.inl rfl)
    · exact .noOp (.inl rfl)
    · exact .noOp (.inl rfl)
  | load d e =>
    cases d <;> cases e <;> cases h
    · exact .write _ _ (.inr (.inl rfl))
    · exact .noOp (.inl rfl)
    · exact .noOp (.inl rfl)
    · exact .noOp (.inl rfl)
  | output =>
    cases h
    exact .write _ _ (.inr (.inr (.inr rfl)))
  | input =>
    cases h
    exact .input rfl
  | set v =>
    cases h
    exact .write _ _ (.inr (.inr (.inl rfl)))
  | jmp v =>
    cases h
    exact .jump _ (.inl rfl)
  | mov d e =>
    cases d <;> cases e <;> cases h
    · exact .write _ _ (.inl rfl)
    · exact .noOp (.inl rfl)
    · exact .noOp (.inl rfl)
    · exact .noOp (.inl rfl)

/-- Everything a Step can do: nothing on a halted machine, the decoded instruction, or, on an unrecognized word, the
counter's advance. -/
theorem step_cases {s t : State} (h : step s = .next t) :
    (s.halted = true ∧ t = s) ∨
      (s.halted = false ∧ ∃ i, decode s.params s.fetch = .ok i ∧ exec i s = .next t) ∨
      (s.halted = false ∧ (∃ r, decode s.params s.fetch = .error r) ∧ t = noOp s) := by
  unfold step at h
  split at h
  · rename_i hh
    cases h
    exact .inl ⟨hh, rfl⟩
  · rename_i hh
    have hh' : s.halted = false := by simpa using hh
    split at h
    · rename_i i hi
      exact .inr (.inl ⟨hh', i, hi, h⟩)
    · rename_i r hr
      cases h
      exact .inr (.inr ⟨hh', ⟨r, hr⟩, rfl⟩)

end Sys2Proof.Machine
end

