-- ==== Sys2Proof/Tests/Slice0.lean ====
section
/-! SUPPORT. The model's own tests. Words and results are those of spec/95_test_vectors.md (section in each comment)
unless a comment says otherwise; below them, one witness for each statement with hypotheses, and for each clause of it. -/

namespace Sys2Proof.Tests

open Sys2Proof.Machine

/-! ## Helpers -/

/-- The next state of an outcome, if it is one. -/
def after (o : Host.Outcome State Fault Refusal) : Option State :=
  match o with
  | .next t => some t
  | .fault _ => none
  | .refused _ => none

/-- One Step on a state with a word placed where it fetches. -/
def stepWord (s : State) (w : Nat) : Option State := after (step (s.withFetchWord 16 w))

/-- An allowed choice of parameters away from the defaults. -/
def otherParams : Params :=
  { defaultParams with
    highBits := .unrecognized
    pcRead := .current
    pcOverflow := .halt
    opcCall := 0x0A
    opcRet := 0x15
    memInit := Vector.replicate 16 0xA5 }

/-- Parameters that differ from the defaults in `PC_OVERFLOW` only. -/
def haltParams : Params := { defaultParams with pcOverflow := .halt }

/-- A running state that holds one word at program address 0. -/
def running (w : Nat) : State := State.reset.withFetchWord 16 w

/-! ## WellFormed refuses each kind of ill-formed term -/

theorem test_wellFormed_refuses_unresolved_source : (Instr.add (.resolved .ac) .unresolved).wellFormed = false := by
  decide

theorem test_wellFormed_refuses_unresolved_destination : (Instr.store .unresolved (.resolved .r0)).wellFormed = false := by
  decide

theorem test_wellFormed_refuses_unresolved_single : (Instr.inc .unresolved).wellFormed = false := by decide

theorem test_params_refuse_shared_nibble :
    ¬ ({ defaultParams with regIndex := { defaultRegIndex with ac := 0 } } : Params).wellFormed := by decide

theorem test_params_refuse_equal_call_and_ret : ¬ ({ defaultParams with opcRet := 0x16 } : Params).wellFormed := by
  decide

theorem test_params_refuse_fixed_opcode_for_call :
    ¬ ({ defaultParams with opcCall := 0x18 } : Params).wellFormed := by decide

theorem test_params_refuse_fixed_opcode_for_ret : ¬ ({ defaultParams with opcRet := 0x09 } : Params).wellFormed := by
  decide

/-! ## Decode: every constructor, from a word written out from the encoding (R65, R74; section 2.1) -/

theorem test_decode_add : decode defaultParams 0b0000000001000000 = .ok (.add (.resolved .ac) (.resolved .r0)) := rfl
theorem test_decode_sub : decode defaultParams 0b0000000100010010 = .ok (.sub (.resolved .r1) (.resolved .r2)) := rfl
theorem test_decode_inc : decode defaultParams 0b0000001000010010 = .ok (.inc (.resolved .r1)) := rfl
theorem test_decode_dec : decode defaultParams 0b0000001100100010 = .ok (.dec (.resolved .r2)) := rfl
theorem test_decode_cpl : decode defaultParams 0b0000010000110011 = .ok (.cpl (.resolved .r3)) := rfl
theorem test_decode_and : decode defaultParams 0b0000010100000001 = .ok (.and (.resolved .r0) (.resolved .r1)) := rfl
theorem test_decode_or : decode defaultParams 0b0000011001000010 = .ok (.or (.resolved .ac) (.resolved .r2)) := rfl
theorem test_decode_xor : decode defaultParams 0b0000011100000010 = .ok (.xor (.resolved .r0) (.resolved .r2)) := rfl
theorem test_decode_rr : decode defaultParams 0b0000100000000000 = .ok (.rr (.resolved .r0)) := rfl
theorem test_decode_rl : decode defaultParams 0b0000100101000100 = .ok (.rl (.resolved .ac)) := rfl
theorem test_decode_call : decode defaultParams 0b0001011000000011 = .ok (.call 0x03) := rfl
theorem test_decode_ret : decode defaultParams 0b0001011100000000 = .ok .ret := rfl
theorem test_decode_jz : decode defaultParams 0b0001100000000111 = .ok (.jz 0x07) := rfl
theorem test_decode_store : decode defaultParams 0b0001100101110100 = .ok (.store (.resolved .sp) (.resolved .ac)) := rfl
theorem test_decode_load : decode defaultParams 0b0001101001010010 = .ok (.load (.resolved .pc) (.resolved .r2)) := rfl
theorem test_decode_out : decode defaultParams 0b0001101100000000 = .ok .output := rfl
theorem test_decode_in : decode defaultParams 0b0001110001010101 = .ok .input := rfl
theorem test_decode_set : decode defaultParams 0b0001110100000101 = .ok (.set 0x05) := rfl
theorem test_decode_jmp : decode defaultParams 0b0001111010000000 = .ok (.jmp 0x80) := rfl
theorem test_decode_mov : decode defaultParams 0b0001111101100100 = .ok (.mov (.resolved .rs) (.resolved .ac)) := rfl

/-- Section 2.1: `1D05` gives the keys R0 and PC, which SET ignores. -/
theorem test_decodeFields_set : decodeFields defaultParams 0x1D05 = ⟨some .set, .resolved .r0, .resolved .pc, 0x05⟩ := by
  decide

/-- Section 2.1: `0A12` and `1512` are unrecognized. -/
theorem test_decode_unrecognized : decode defaultParams 0x1512 = .error (.unrecognizedOpcode 0x15) := rfl

/-- Section 2.1: `2040` is unrecognized under `HIGH_BITS = unrecognized` and ADD AC, R0 under `ignore`. -/
theorem test_decode_high_bits : decode otherParams 0x2040 = .error (.highBitsSet 1) ∧
    decode defaultParams 0x2040 = .ok (.add (.resolved .ac) (.resolved .r0)) := ⟨rfl, rfl⟩

/-- Section 2.2: `STORE [R1], R0` is `1910`. -/
theorem test_encode_store : encode defaultParams (.store (.resolved .r1) (.resolved .r0)) = some 0x1910 := by decide

/-- R65: class R1 holds its register in both nibbles. -/
theorem test_encode_inc : encode defaultParams (.inc (.resolved .r1)) = some 0x0211 := by decide

theorem test_decodeTableWord : decodeTableWord 16 0x1F45 = some (.mov (.resolved .ac) (.resolved .pc)) := by decide

/-! ## One Step of each instruction -/

/-- Section 2.3. -/
theorem test_add_wraps : (stepWord { State.reset with ac := 0xFF, r0 := 0x02 } 0x0040).map (fun t => (t.ac, t.z, t.pc)) =
    some (0x01, false, 0x01) := by decide

/-- Section 2.3: `ADD PC, R0` at 0x10 jumps to 0x11 + 0x05. -/
theorem test_add_pc : (stepWord { State.reset with pc := 0x10, r0 := 0x05 } 0x0050).map (fun t => (t.pc, t.z)) =
    some (0x16, false) := by decide

/-- Section 2.3. -/
theorem test_sub_order : (stepWord { State.reset with r1 := 0x03, r2 := 0x05 } 0x0112).map (fun t => (t.r1, t.z)) =
    some (0xFE, false) := by decide

/-- Section 2.3: `SUB PC, PC` gives 0x00 and Z = 1. -/
theorem test_sub_pc_pc : (stepWord { State.reset with pc := 0x10 } 0x0155).map (fun t => (t.pc, t.z)) =
    some (0x00, true) := by decide

/-- Section 2.3. -/
theorem test_inc_to_zero : (stepWord { State.reset with r1 := 0xFF } 0x0211).map (fun t => (t.r1, t.z)) =
    some (0x00, true) := by decide

/-- Section 2.3: `INC PC` at 0x10 skips an instruction. -/
theorem test_inc_pc : (stepWord { State.reset with pc := 0x10 } 0x0255).map (fun t => t.pc) = some 0x12 := by decide

/-- Section 2.3. -/
theorem test_dec_wraps : (stepWord State.reset 0x0322).map (fun t => (t.r2, t.z)) = some (0xFF, false) := by decide

/-- Section 2.3. -/
theorem test_cpl : (stepWord { State.reset with r3 := 0x5A } 0x0433).map (fun t => (t.r3, t.z)) =
    some (0xA5, false) := by decide

/-- Section 2.3: `CPL` of nibble 12 is a no-op that keeps Z. -/
theorem test_cpl_reserved_nibble : (stepWord { State.reset with pc := 0x10, z := true } 0x04CC).map (fun t => (t.pc, t.z)) =
    some (0x11, true) := by decide

/-- Section 2.3. -/
theorem test_and_zero : (stepWord { State.reset with r0 := 0xF0, r1 := 0x0F } 0x0501).map (fun t => (t.r0, t.z)) =
    some (0x00, true) := by decide

/-- Section 2.3. -/
theorem test_or : (stepWord { State.reset with ac := 0x50, r2 := 0x0A } 0x0642).map (fun t => (t.ac, t.z)) =
    some (0x5A, false) := by decide

/-- Section 2.3. -/
theorem test_xor : (stepWord { State.reset with r0 := 0xAA, r2 := 0xFF } 0x0702).map (fun t => (t.r0, t.z)) =
    some (0x55, false) := by decide

/-- Section 2.3: no bit enters bit 7. -/
theorem test_rr_shifts : (stepWord { State.reset with r0 := 0x81 } 0x0800).map (fun t => (t.r0, t.z)) =
    some (0x40, false) := by decide

/-- Section 2.3. -/
theorem test_rl_to_zero : (stepWord { State.reset with r1 := 0x80 } 0x0911).map (fun t => (t.r1, t.z)) =
    some (0x00, true) := by decide

/-- Section 2.4: PC as an operand reads `currentPC + 1`. -/
theorem test_mov_from_pc : (stepWord { State.reset with pc := 0x03 } 0x1F45).map (fun t => (t.ac, t.pc)) =
    some (0x04, 0x04) := by decide

/-- Section 2.4: MOV to PC is a jump. -/
theorem test_mov_to_pc : (stepWord { State.reset with r2 := 0x20 } 0x1F52).map (fun t => t.pc) = some 0x20 := by decide

/-- Section 2.4: SET 00 does not set Z. -/
theorem test_set_zero : (stepWord { State.reset with ac := 0x44 } 0x1D00).map (fun t => (t.ac, t.z)) =
    some (0x00, false) := by decide

/-- Section 2.5. -/
theorem test_jmp : (stepWord { State.reset with pc := 0x05 } 0x1E2A).map (fun t => t.pc) = some 0x2A := by decide

/-- Section 2.5. -/
theorem test_jz_taken : (stepWord { State.reset with z := true } 0x1807).map (fun t => (t.pc, t.z)) =
    some (0x07, true) := by decide

/-- Section 2.5. -/
theorem test_jz_falls_through : (stepWord { State.reset with pc := 0x02 } 0x1807).map (fun t => t.pc) =
    some 0x03 := by decide

/-- Section 2.5: at 0xFF the return address is 0x00. -/
theorem test_call_at_top : (stepWord { State.reset with pc := 0xFF } 0x1610).map (fun t => (t.sp, t.pc)) =
    some (0x00, 0x10) := by decide

/-- Section 2.5. -/
theorem test_ret : (stepWord { State.reset with sp := 0x01, pc := 0x20 } 0x1700).map (fun t => (t.pc, t.sp)) =
    some (0x01, 0x01) := by decide

/-- Section 2.6. -/
theorem test_in : (stepWord { State.reset with swInputs := [0x05] } 0x1C00).map (fun t => (t.ac, t.swInputs)) =
    some (0x05, []) := by decide

/-- Section 2.6. -/
theorem test_out : (stepWord { State.reset with ac := 0x5A } 0x1B00).map (fun t => (t.rs, t.ac)) =
    some (0x5A, 0x5A) := by decide

/-- Section 2.7: index 0x23 reads cell 3. -/
theorem test_load_aliases : (stepWord { State.reset with r1 := 0x23, mem := [(3, 0x7E)] } 0x1A01).map (fun t => (t.r0, t.z)) =
    some (0x7E, false) := by decide

/-- Section 2.7: LOAD to PC jumps to the byte in the cell. -/
theorem test_load_pc : (stepWord { State.reset with r2 := 0x0F, mem := [(15, 0x09)] } 0x1A52).map (fun t => t.pc) =
    some 0x09 := by decide

/-- Section 2.7: index 0xF7 writes cell 7. -/
theorem test_store_aliases : (stepWord { State.reset with r3 := 0xF7 } 0x1933).map (fun t => t.mem) =
    some [(7, 0xF7)] := by decide

/-- R50 and the canonical form: storing what the cell reads as when unlisted removes its entry. -/
theorem test_store_keeps_canonical :
    (stepWord { State.reset with r1 := 0x05, mem := [(5, 0xAB)] } 0x1910).map (fun t => t.mem) = some [] := by decide

/-- R29: under `PC_OVERFLOW = halt` an advance from 0xFF sets `ovf` and halts the machine. -/
theorem test_advance_halts : (stepWord { State.afterReset haltParams with pc := 0xFF } 0x1B00).map (fun t => (t.pc, t.ovf, t.halted)) =
    some (0x00, true, true) := by decide

/-- Section 2.8: with an empty program nothing changes. -/
theorem test_empty_program : after (step State.reset) = some State.reset := by decide

/-- R134: a load while halted at pc = 5 leaves registers, Z and memory. -/
theorem test_load_program :
    (({ State.reset with pc := 5, r0 := 0x37, z := true }).load [0x1D05, 0x1E00]).snapshot.prog = [0x1D05, 0x1E00] := by
  decide

/-! ## The software around the block -/

/-- L1-5. -/
theorem test_assemble_call : assemble defaultParams "CALL SUB\nJMP 03\nSUB:\nRET".toList =
    .ok [0x1602, 0x1E03, 0x1700] := by rfl

/-- L1-6: the second declaration is on line 3. -/
theorem test_duplicate_label : assemble defaultParams "A:\nIN\nA:\nOUT".toList = .error ⟨.duplicateLabel, 3⟩ := by rfl

/-- Section 2.2: RS has no operand spelling. -/
theorem test_rs_is_no_operand : assemble defaultParams "MOV RS, AC".toList = .error ⟨.invalidOperand, 1⟩ := by rfl

/-- R89: a value over 0xFFFF. -/
theorem test_hexLoad_range : hexLoad "1F45\n\n10000".toList = .error ⟨.invalidHexWord, 3⟩ := by rfl

/-- Section 2.1: `0A12` prints as the placeholder. -/
theorem test_disassemble_unknown : disassemble defaultParams 0x0A12 = "UNKNOWN 0A12".toList := by rfl

/-! ## Witnesses: every statement with hypotheses has a case that meets them -/

theorem witness_DecodeOfEncodeIsTheInstruction :
    otherParams.wellFormed ∧ (Instr.store (.resolved .sp) (.resolved .pc)).wellFormed = true := by decide

theorem witness_HighBitsParameterDecidesBits15To13 :
    (defaultParams.highBits = .ignore ∧ (0xFF45 : Word).toNat % 2 ^ 13 = (0x1F45 : Word).toNat % 2 ^ 13) ∧
      (otherParams.highBits = .unrecognized ∧ 2 ^ 13 ≤ (0x2000 : Word).toNat) := by decide

theorem witness_SampleWordsDecodeRight : 8 ≤ (0x8 : Nibble).toNat ∧ 8 ≤ (0xF : Nibble).toNat := by decide

theorem witness_IgnoredFieldsDoNotChangeTheInstruction :
    (decode defaultParams 0x0209 = .ok (.inc (.resolved .r0)) ∧ (0x0209 : Word).toNat / 2 ^ 8 = (0x0200 : Word).toNat / 2 ^ 8 ∧
      Op.inc.opClass = .r1 ∧ destField 0x0209 = destField 0x0200) ∧
      (decode defaultParams 0x1CFF = .ok .input ∧ (0x1CFF : Word).toNat / 2 ^ 8 = (0x1C00 : Word).toNat / 2 ^ 8 ∧
        Op.input.opClass = .noOperand) := ⟨⟨rfl, rfl, rfl, rfl⟩, rfl, rfl, rfl⟩

theorem witness_CplTwiceRestoresTheRegister :
    Reg.r3 ≠ .pc ∧ ∃ t u, exec (.cpl (.resolved .r3)) State.reset = .next t ∧ exec (.cpl (.resolved .r3)) t = .next u :=
  ⟨by decide, _, _, rfl, rfl⟩

theorem witness_ZeroFlagIsWrittenByTheAluAndReadByJz :
    ((Instr.inc (.resolved .pc)).aluDest = some .pc ∧ ∃ t, exec (.inc (.resolved .pc)) State.reset = .next t) ∧
      (Op.isAlu .mov = false ∧ ∃ t, exec (.mov (.resolved .r0) (.resolved .r1)) State.reset = .next t) ∧
      ((Instr.inc .unresolved).wellFormed = false ∧ ∃ t, exec (.inc .unresolved) State.reset = .next t) ∧
      (Instr.ret.op ≠ .jz ∧ ∃ t, exec .ret State.reset = .next t) :=
  ⟨⟨rfl, _, rfl⟩, ⟨rfl, _, rfl⟩, ⟨rfl, _, rfl⟩, by decide, _, rfl⟩

/-- The decode clauses of SET, JMP, JZ, CALL, RET, IN and OUT: a word with bits 15:13 set under `ignore`, and one without under
`unrecognized`. -/
theorem witness_decode_clauses :
    (defaultParams.wellFormed ∧ defaultParams.highBits = .ignore ∧ opcodeField 0xFD05 = 0x1D ∧ opcodeField 0xFE00 = 0x1E ∧
      opcodeField 0xF807 = 0x18 ∧ opcodeField 0xF755 = defaultParams.opcRet ∧ opcodeField 0xFC55 = 0x1C ∧
      opcodeField 0xFB01 = 0x1B ∧ opcodeField 0xF603 = defaultParams.opcCall) ∧
    (otherParams.wellFormed ∧ highField 0x1D05 = 0#3 ∧ opcodeField 0x1D05 = 0x1D ∧ highField 0x1E00 = 0#3 ∧
      opcodeField 0x1E00 = 0x1E ∧ highField 0x1807 = 0#3 ∧ opcodeField 0x1807 = 0x18 ∧ highField 0x1500 = 0#3 ∧
      opcodeField 0x1500 = otherParams.opcRet ∧ highField 0x1C00 = 0#3 ∧ opcodeField 0x1C00 = 0x1C ∧
      highField 0x1B00 = 0#3 ∧ opcodeField 0x1B00 = 0x1B ∧ highField 0x0A03 = 0#3 ∧
      opcodeField 0x0A03 = otherParams.opcCall) := by decide

/-- Every opcode value has words, without and with bits 15:13 set; CALL's and RET's under both choices of them. -/
theorem witness_EachOpcodeDecodesToItsMnemonic :
    (defaultParams.wellFormed ∧ defaultParams.highBits = .ignore ∧ otherParams.wellFormed ∧
      ∀ v : OpcodeValue, opcodeField (packWord v 0xFF) = v ∧ highField (packWord v 0xFF) = 0#3 ∧
        opcodeField (packWord v 0xFF ||| 0xE000) = v) ∧
      keyOf otherParams 0x7 = .resolved .sp ∧ regNibble otherParams .sp = 0x7 := by decide

/-- A target at L and one below it, and a JMP to its own address. -/
theorem witness_JmpSetsTheCounter :
    ((running 0x1E00).len.val ≤ (0x01 : Byte).toNat ∧ ¬ (running 0x1E00).len.val ≤ (0x00 : Byte).toNat) ∧
      (running 0x1E00).halted = false ∧
      decode (running 0x1E00).params (running 0x1E00).fetch = .ok (.jmp (running 0x1E00).pc) := by decide

theorem witness_JzIsTakenExactlyWhenZIsOne :
    (∀ i ∈ [Instr.set 0x00, .mov (.resolved .r0) (.resolved .ac), .input],
      i.op.isAlu = false) ∧
      State.reset.z = false ∧ ({ State.reset with z := true } : State).z = true ∧
      State.reset.params.pcOverflow = .wrap ∧ ({ State.afterReset haltParams with pc := 0xFE } : State).pc ≠ 0xFF := by
  decide

theorem witness_RetSetsTheCounterToSp :
    ({ State.reset with len := 1, sp := 0x01 } : State).len.val ≤ (0x01 : Byte).toNat := by decide

theorem witness_NestedCallLosesTheOuterReturnAddress :
    ∃ t u v x, exec (.call 0x03) State.reset = .next t ∧ exec (.call 0x06) t = .next u ∧ exec .ret u = .next v ∧
      exec .ret v = .next x ∧ ∃ y, exec .ret t = .next y :=
  ⟨_, _, _, _, rfl, rfl, rfl, rfl, _, rfl⟩

theorem witness_InWritesTheSampleToAc :
    ({ State.reset with swInputs := [0x05, 0x09] } : State).swInputs = 0x05 :: [0x09] ∧ State.reset.swInputs = [] :=
  ⟨rfl, rfl⟩

theorem witness_StepWithASampleInputsIt :
    (running 0x1C00).halted = false ∧ decode (running 0x1C00).params (running 0x1C00).fetch = .ok .input := ⟨rfl, rfl⟩

theorem witness_OnlyInReadsTheSwitches :
    State.reset.halted = true ∧ decode (running 0x1B00).params (running 0x1B00).fetch = .ok .output := ⟨rfl, rfl⟩

theorem witness_MemWriteSetsOneCellAndMemReadReadsIt : (15 : Cell).toNat = (0xFF : Byte).toNat % 16 := by decide

theorem witness_LoadReadsTheIndexedCell :
    (3 : Cell).toNat = (({ State.reset with r1 := 0x23 } : State).operand .r1).toNat % 16 := by decide

theorem witness_LoadAfterStoreSeesIt :
    Reg.r2 ≠ .pc ∧ (∃ t u, exec (.store (.resolved .r1) (.resolved .r0)) State.reset = .next t ∧
      exec (.load (.resolved .r2) (.resolved .r1)) t = .next u ∧
      (t.operand .r1).toNat % 16 = (State.reset.operand .r1).toNat % 16) ∧
    ∃ t u, exec (.store (.resolved .r1) (.resolved .r0)) { State.reset with r3 := 0x0F } = .next t ∧
      exec (.load (.resolved .r2) (.resolved .r3)) t = .next u ∧
      (t.operand .r3).toNat % 16 ≠ (State.reset.operand .r1).toNat % 16 :=
  ⟨by decide, ⟨_, _, rfl, rfl, by decide⟩, _, _, rfl, rfl, by decide⟩

theorem witness_CanonicalMemoryIsDeterminedByItsReads :
    Memory.wf defaultParams [(0, 0x01), (15, 0xAB)] ∧
      ∀ c : Cell, ({ State.reset with mem := [(0, 0x01), (15, 0xAB)] } : State).cell c =
        ({ { State.reset with mem := [(0, 0x01), (15, 0xAB)] } with mem := [(0, 0x01), (15, 0xAB)] } : State).cell c :=
  ⟨by decide, fun _ => rfl⟩

theorem witness_OnlyStoreWritesAndOnlyLoadReadsMemory :
    (∃ t, step { running 0x1910 with r0 := 0xAB } = .next t ∧ t.mem ≠ State.reset.mem) ∧
      (∃ t, step (running 0x1B00) = .next t) ∧ decode defaultParams (running 0x1B00).fetch = .ok .output :=
  ⟨⟨_, rfl, by decide⟩, ⟨_, rfl⟩, rfl⟩

theorem witness_UnresolvedOperandsMakeANoOp : (Instr.load (.resolved .pc) .unresolved).wellFormed = false := by decide

theorem witness_UnrecognizedWordOnlyAdvancesTheCounter :
    (running 0x0A12).halted = false ∧
      decode (running 0x0A12).params (running 0x0A12).fetch = .error (.unrecognizedOpcode 0x0A) := ⟨rfl, rfl⟩

theorem witness_StepRunsTheDecodedInstruction :
    (running 0x1F45).halted = false ∧
      decode (running 0x1F45).params (running 0x1F45).fetch = .ok (.mov (.resolved .ac) (.resolved .pc)) := ⟨rfl, rfl⟩

/-- `pc = L` and, under `PC_OVERFLOW = halt`, `ovf` with `pc < L`. -/
theorem witness_HaltedStepChangesNothing :
    ({ State.reset with len := 2, pc := 2 } : State).halted = true ∧
      ({ State.afterReset haltParams with len := 2, ovf := true } : State).halted = true ∧
      ({ State.reset with len := 2, pc := 1, ovf := true } : State).halted = false := by decide

theorem witness_HaltedMachineStaysAsItIs : ({ State.reset with len := 2, pc := 2 } : State).halted = true := by decide

theorem witness_EmptyProgramIsHalted : ({ State.reset with pc := 0xFF } : State).len = 0 := by decide

theorem witness_FullProgramNeverHaltsUnderWrap :
    ({ State.reset with len := 256, pc := 0xFF } : State).len.val = 256 ∧ State.reset.params.pcOverflow = .wrap := by
  decide

theorem witness_CounterAdvancesUnlessWritten :
    ((Instr.jz 0x07).writesCounter false = false ∧ ∃ t, exec (.jz 0x07) State.reset = .next t) ∧
      ((Instr.load (.resolved .pc) (.resolved .r0)).writesCounter false = true ∧
        ∃ t, exec (.load (.resolved .pc) (.resolved .r0)) State.reset = .next t) :=
  ⟨⟨rfl, _, rfl⟩, rfl, _, rfl⟩

theorem witness_AdvanceFromTheTopWrapsOrHalts :
    Instr.output.writesCounter false = false ∧
      (∃ t, exec .output { State.reset with pc := 0xFF } = .next t) ∧ State.reset.params.pcOverflow = .wrap ∧
      (∃ t, exec .output { State.afterReset haltParams with pc := 0xFF } = .next t) ∧ haltParams.pcOverflow = .halt :=
  ⟨rfl, ⟨_, rfl⟩, rfl, ⟨_, rfl⟩, rfl⟩

theorem witness_PcOperandFollowsPcRead :
    Reg.ac ≠ .pc ∧ Reg.r1 ≠ .pc ∧ State.reset.params.pcRead = .next ∧
      (State.afterReset otherParams).params.pcRead = .current := by decide

theorem witness_NoStepChangesTheProgram : ∃ t, step (running 0x1D05) = .next t := ⟨_, rfl⟩

theorem witness_WordsBeyondTheLengthAreNeverFetched :
    (∀ a : Byte, a.toNat < (running 0x1D05).len.val →
      ({ running 0x1D05 with prog := [(0, 0x1D05), (255, 0x1F45)] } : State).progAt a = (running 0x1D05).progAt a) ∧
      ∃ t, step (running 0x1D05) = .next t := by
  refine ⟨fun a ha => ?_, _, rfl⟩
  have h0 : a = 0 := by
    apply BitVec.eq_of_toNat_eq
    have h1 : (running 0x1D05).len.val = 1 := rfl
    simp only [BitVec.ofNat_eq_ofNat, BitVec.toNat_ofNat, Nat.zero_mod]
    omega
  subst h0
  rfl

/-- A well-formed state away from reset: a memory entry at each end, a full store address, `ovf` under `halt`. -/
theorem witness_StepKeepsWellFormedStates :
    ({ State.afterReset haltParams with
        mem := [(0, 0x01), (15, 0xAB)], prog := [(0, 0x1D05), (255, 0x1F45)], len := 256, ovf := true } : State).WellFormed ∧
      ∃ t, step { State.afterReset haltParams with
        mem := [(0, 0x01), (15, 0xAB)], prog := [(0, 0x1D05), (255, 0x1F45)], len := 256, ovf := true } = .next t :=
  ⟨⟨by decide, by decide, by decide, by decide⟩, _, rfl⟩

theorem witness_ResetStateIsWellFormed : otherParams.wellFormed := by decide

theorem witness_HostOperationsKeepWellFormedStates :
    ({ State.afterReset otherParams with mem := [(7, 0x00)], ovf := true } : State).WellFormed :=
  ⟨by decide, by decide, by decide, by decide⟩

theorem witness_ReachableStatesAreWellFormed : ((State.afterReset otherParams).load [0x1C00]).Reachable :=
  .operation (.load [0x1C00]) (.afterReset otherParams (by decide)) rfl

/-- A machine that was never reset, its registers, Z, memory and `ovf` away from their reset values. -/
def neverReset : State :=
  { State.afterReset haltParams with ac := 0x37, sp := 0xFF, pc := 0x80, z := true, ovf := true, mem := [(3, 0x7E)] }

theorem witness_FirstLoadNeedsNoReset : neverReset.BeforeFirstLoad ∧ ([] : List Word).length < 256 :=
  ⟨⟨⟨by decide, by decide, by decide, by decide⟩, rfl⟩, by decide⟩

/-- R137: a first load with no reset before it is reachable, and clears no register. -/
theorem witness_reachable_without_reset :
    (neverReset.load [0x1C00]).Reachable ∧ (neverReset.load [0x1C00]).ac = 0x37 :=
  ⟨.operation (.load [0x1C00]) (.beforeFirstLoad witness_FirstLoadNeedsNoReset.1) rfl, rfl⟩

theorem witness_ResetLeavesRegistersAndFlagZero : (List.replicate 256 (0x1C00 : Word)).length ≤ 256 := by
  rw [List.length_replicate]

/-- 256 words, the longest program that loads, and 257, the shortest that does not. -/
theorem witness_LoadInstallsTheWholeProgram :
    ((List.replicate 256 (0x1C00 : Word)).length ≤ 256 ∧ 255 < (List.replicate 256 (0x1C00 : Word)).length) ∧
      256 < (List.replicate 257 (0x1C00 : Word)).length := by
  rw [List.length_replicate, List.length_replicate]
  decide

theorem witness_LoadedProgramStartsAtItsFirstWord : (List.replicate 255 (0x1C00 : Word)).length < 256 := by
  rw [List.length_replicate]
  decide

theorem witness_AssembleOfDisassembleIsTheWord :
    otherParams.wellFormed ∧ canonical otherParams 0x1977 = true ∧ canonical otherParams 0x1500 = true := by decide

theorem witness_AssemblyGivesAtMost256CanonicalWords :
    defaultParams.wellFormed ∧
      assembleLines defaultParams ["LOOP:".toList, "JMP LOOP".toList] = .ok [0x1E00] := ⟨by decide, rfl⟩

theorem witness_HexLoadGivesAtMost256Words : hexLoadLines ["1F45".toList] = .ok [0x1F45] := by rfl

theorem witness_FailedBuildLeavesTheMachineAsItWas :
    assemble defaultParams "NOP".toList = .error ⟨.unknownMnemonic, 1⟩ ∧ hexLoad "12G4".toList = .error ⟨.invalidHexWord, 1⟩ ∧
      assemble defaultParams "IN".toList = .ok [0x1C00] ∧ hexLoad "ffff".toList = .ok [0xFFFF] := ⟨by rfl, by rfl, by rfl, by rfl⟩

end Sys2Proof.Tests
end

section
/-! What an instruction and a Step keep: rules about the pieces of a Step, and the statements about the state, the
counter, the zero flag and the switches that follow from them. -/

namespace Sys2Proof.Machine

/-! ## Which instructions write Z and the counter -/

/-- The instructions with an ALU destination are the well-formed ones of the ALU class (R24, R76). -/
theorem aluDest_isSome (i : Instr) : i.aluDest.isSome = (i.op.isAlu && i.wellFormed) := by
  cases i with
  | add d e | sub d e | and d e | or d e | xor d e => cases d <;> cases e <;> rfl
  | inc d | dec d | cpl d | rr d | rl d => cases d <;> rfl
  | _ => rfl

theorem isAlu_and_wellFormed_of_aluDest {i : Instr} {d : Reg} (h : i.aluDest = some d) :
    i.op.isAlu = true ∧ i.wellFormed = true := by
  simpa [h] using (aluDest_isSome i).symm

theorem aluDest_of_not_wellFormed {i : Instr} (h : i.wellFormed = false) : i.aluDest = none := by
  simpa [h] using aluDest_isSome i

/-- An ALU instruction writes the counter exactly when its destination is PC (R30). -/
theorem writesCounter_of_isAlu {i : Instr} (h : i.op.isAlu = true) (z : Bool) :
    i.writesCounter z = (i.aluDest == some .pc) := by
  cases i <;> cases h <;> rfl

/-- An instruction that degrades to a no-op does not write the counter (R76). -/
theorem writesCounter_of_not_wellFormed {i : Instr} (h : i.wellFormed = false) (z : Bool) :
    i.writesCounter z = false := by
  cases i with
  | jmp v | jz v | call v | ret | set v | input | output => cases h
  | store d e => rfl
  | mov d e | load d e =>
    cases d with
    | unresolved => rfl
    | resolved q =>
      cases e with
      | resolved r => cases h
      | unresolved => cases q <;> rfl
  | _ => rw [writesCounter_of_isAlu rfl, aluDest_of_not_wellFormed h]; rfl

/-! ## Operands -/

theorem State.operand_of_ne_pc (s : State) {r : Reg} (h : r ≠ .pc) : s.operand r = s.reg r := by
  simp [State.operand, h]

theorem State.operand_pc_next {s : State} (h : s.params.pcRead = .next) : s.operand .pc = s.pc + 1 := by
  simp [State.operand, State.pcOperand, h, State.nextPc]

theorem State.operand_pc_current {s : State} (h : s.params.pcRead = .current) : s.operand .pc = s.pc := by
  simp [State.operand, State.pcOperand, h]

theorem State.operand_congr {s t : State} (hr : ∀ r, t.reg r = s.reg r) (hp : t.params = s.params) (r : Reg) :
    t.operand r = s.operand r := by
  have hpc : t.pc = s.pc := hr .pc
  simp [State.operand, State.pcOperand, State.nextPc, hr, hp, hpc]

/-! ## The register, the counter and the program after a Step's write -/

/-- The written register holds the written value, also where it is PC (R22, R30). -/
theorem reg_of_wroteOnly {s t : State} {d : Reg} {v : Byte} (h : WroteOnly s t d v) : t.reg d = v := by
  obtain ⟨hregs, hjump, -⟩ := h
  by_cases hd : d = .pc
  · subst hd
    exact (hjump rfl).1
  · simpa using hregs d hd

/-- What a Step does to the counter: the advance where it does not write it, and no change of `ovf` where it does
(R29, R30). -/
def CounterRule (writes : Bool) (s t : State) : Prop :=
  (writes = false → Advanced s t) ∧ (writes = true → t.ovf = s.ovf)

theorem counterRule_of_advanced {s t : State} (h : Advanced s t) : CounterRule false s t :=
  ⟨fun _ => h, fun hw => absurd hw (by decide)⟩

theorem counterRule_of_ovf_eq {s t : State} (h : t.ovf = s.ovf) : CounterRule true s t :=
  ⟨fun hw => absurd hw (by decide), fun _ => h⟩

theorem counterRule_of_wroteOnly {s t : State} {d : Reg} {v : Byte} (h : WroteOnly s t d v) :
    CounterRule (d == .pc) s t := by
  obtain ⟨-, hjump, hadvance⟩ := h
  exact ⟨fun hd => hadvance (by simpa using hd), fun hd => (hjump (by simpa using hd)).2⟩

theorem counterRule_noOp (s : State) : CounterRule false s (noOp s) := counterRule_of_advanced ⟨rfl, rfl⟩

theorem counterRule_jumpStep (s : State) (v : Byte) : CounterRule true s (jumpStep s v) := counterRule_of_ovf_eq rfl

/-- An ALU instruction writes a result back to its destination, or is a no-op (R76, R92). -/
theorem exec_of_isAlu {i : Instr} {s t : State} (hi : i.op.isAlu = true) (h : exec i s = .next t) :
    (i.aluDest = none ∧ t = noOp s) ∨ ∃ d r, i.aluDest = some d ∧ t = aluWriteBack s d r := by
  cases exec_shape h with
  | noOp hno =>
    rcases hno with hwf | hop
    · exact .inl ⟨aluDest_of_not_wellFormed hwf, rfl⟩
    · simp [hop, Op.isAlu] at hi
  | alu d r hd => exact .inr ⟨d, r, hd, rfl⟩
  | write d v hop => rcases hop with hop | hop | hop | hop <;> simp [hop, Op.isAlu] at hi
  | jump v hop => rcases hop with hop | hop | hop <;> simp [hop, Op.isAlu] at hi
  | call v hop => simp [hop, Op.isAlu] at hi
  | store a v hop => simp [hop, Op.isAlu] at hi
  | input hop => simp [hop, Op.isAlu] at hi

theorem counterRule_of_isAlu {i : Instr} {s t : State} (hi : i.op.isAlu = true) (h : exec i s = .next t) :
    CounterRule (i.writesCounter s.z) s t := by
  rw [writesCounter_of_isAlu hi]
  rcases exec_of_isAlu hi h with ⟨hd, rfl⟩ | ⟨d, r, hd, rfl⟩ <;> rw [hd]
  · exact counterRule_noOp s
  · exact counterRule_of_wroteOnly (aluWriteBack_wroteOnly s d r)

theorem writesCounter_mov (z : Bool) (d e : Reg) :
    (Instr.mov (.resolved d) (.resolved e)).writesCounter z = (d == .pc) := by
  cases d <;> rfl

theorem writesCounter_load (z : Bool) (d e : Reg) :
    (Instr.load (.resolved d) (.resolved e)).writesCounter z = (d == .pc) := by
  cases d <;> rfl

/-- Every instruction keeps the counter rule. -/
theorem exec_counterRule {i : Instr} {s t : State} (h : exec i s = .next t) :
    CounterRule (i.writesCounter s.z) s t := by
  cases i with
  | jmp v =>
    cases h
    exact counterRule_jumpStep s v
  | call v =>
    cases h
    exact counterRule_of_ovf_eq rfl
  | ret =>
    cases h
    exact counterRule_jumpStep s _
  | jz v =>
    cases hz : s.z <;> simp only [exec, execJz, hz, if_true, Bool.false_eq_true, if_false] at h <;> cases h
    · exact counterRule_noOp s
    · exact counterRule_jumpStep s v
  | mov d e =>
    cases d <;> cases e <;> cases h
    · rw [writesCounter_mov]
      exact counterRule_of_wroteOnly (writeRegStep_wroteOnly s _ _)
    all_goals
      rw [writesCounter_of_not_wellFormed rfl]
      exact counterRule_noOp s
  | load d e =>
    cases d <;> cases e <;> cases h
    · rw [writesCounter_load]
      exact counterRule_of_wroteOnly (writeRegStep_wroteOnly s _ _)
    all_goals
      rw [writesCounter_of_not_wellFormed rfl]
      exact counterRule_noOp s
  | store d e =>
    cases d <;> cases e <;> cases h
    · exact counterRule_of_advanced ⟨rfl, rfl⟩
    all_goals exact counterRule_noOp s
  | set v =>
    cases h
    exact counterRule_of_wroteOnly (writeRegStep_wroteOnly s .ac v)
  | output =>
    cases h
    exact counterRule_of_wroteOnly (writeRegStep_wroteOnly s .rs _)
  | input =>
    cases h
    obtain ⟨-, -, hadvance⟩ := writeRegStep_wroteOnly s.dropSample .ac s.switchSample
    exact counterRule_of_advanced (by simpa [Advanced] using hadvance (by decide))
  | _ => exact counterRule_of_isAlu rfl h

/-- No instruction changes the program, its length or the parameters (R34, R60). -/
theorem exec_sameProgram {i : Instr} {s t : State} (h : exec i s = .next t) : SameProgram s t := by
  cases exec_shape h with
  | noOp => exact ⟨rfl, rfl, rfl⟩
  | alu => simp [SameProgram]
  | write => simp [SameProgram]
  | jump => exact ⟨rfl, rfl, rfl⟩
  | call => exact ⟨rfl, rfl, rfl⟩
  | store => exact ⟨rfl, rfl, rfl⟩
  | input => simp [SameProgram]

/-- Every instruction leaves the data memory as it was or writes one cell of it (R50). -/
theorem exec_mem {i : Instr} {s t : State} (h : exec i s = .next t) :
    t.mem = s.mem ∨ ∃ a v, t.mem = (s.memWrite a v).mem := by
  cases exec_shape h with
  | noOp => exact .inl rfl
  | alu => simp
  | write => simp
  | jump => exact .inl rfl
  | call => exact .inl rfl
  | store a v => exact .inr ⟨a, v, rfl⟩
  | input => simp

/-- Outside the ALU class, and where an operand names no register, Z stays (R24, R76). -/
theorem exec_z_of_aluDest_eq_none {i : Instr} {s t : State} (hi : i.aluDest = none) (h : exec i s = .next t) :
    t.z = s.z := by
  cases exec_shape h with
  | noOp => rfl
  | alu d r hd => simp [hi] at hd
  | write => simp
  | jump => rfl
  | call => rfl
  | store => rfl
  | input => simp

/-! ## The Step's three cases as equations (R31, R41, R75) -/

theorem step_of_halted {s : State} (h : s.halted = true) : step s = .next s := by
  simp [step, h]

theorem step_of_decode_ok {s : State} {i : Instr} (h : s.halted = false) (hi : decode s.params s.fetch = .ok i) :
    step s = exec i s := by
  simp [step, h, hi]

theorem step_of_decode_error {s : State} {r : DecodeReject} (h : s.halted = false)
    (hr : decode s.params s.fetch = .error r) : step s = .next (noOp s) := by
  simp [step, h, hr]

theorem State.halted_iff (s : State) :
    s.halted = true ↔ s.len.val ≤ s.pc.toNat ∨ (s.params.pcOverflow = .halt ∧ s.ovf = true) := by
  simp [State.halted]

/-! ## What an instruction does not read: related states step to related states -/

/-- Two outcomes that are both a next state, the two states related. -/
def BothNext (R : State → State → Prop) (o o' : Host.Outcome State Fault Refusal) : Prop :=
  ∃ t t', o = .next t ∧ o' = .next t' ∧ R t t'

/-- A relation whose states have the same registers and parameters, and which every write of a Step keeps. -/
structure KeptByWrites (R : State → State → Prop) : Prop where
  reg : ∀ {s s'}, R s s' → ∀ r, s'.reg r = s.reg r
  params : ∀ {s s'}, R s s' → s'.params = s.params
  setReg : ∀ {s s'} r v, R s s' → R (s.setReg r v) (s'.setReg r v)
  advance : ∀ {s s'}, R s s' → R s.advance s'.advance
  writeZ : ∀ {s s'} b, R s s' → R { s with z := b } { s' with z := b }
  memWrite : ∀ {s s'} a v, R s s' → R (s.memWrite a v) (s'.memWrite a v)

/-- What an instruction reads besides the registers is alike in two states: JZ's flag (R107), LOAD's memory (R115) and
IN's sample (R113). -/
structure ReadAlike (R : State → State → Prop) (i : Instr) (s s' : State) : Prop where
  flag : i.op = .jz → s'.z = s.z
  memory : i.op = .load → ∀ a, s'.memRead a = s.memRead a
  sample : i.op = .input → s'.switchSample = s.switchSample ∧ R s.dropSample s'.dropSample

namespace KeptByWrites

variable {R : State → State → Prop} {s s' : State}

theorem operand_eq (hR : KeptByWrites R) (hs : R s s') (r : Reg) : s'.operand r = s.operand r :=
  State.operand_congr (hR.reg hs) (hR.params hs) r

theorem nextPc_eq (hR : KeptByWrites R) (hs : R s s') : s'.nextPc = s.nextPc :=
  congrArg (· + 1) (hR.reg hs .pc)

theorem noOp_related (hR : KeptByWrites R) (hs : R s s') : R (noOp s) (noOp s') := hR.advance hs

theorem jumpStep_related (hR : KeptByWrites R) (hs : R s s') (v : Byte) : R (jumpStep s v) (jumpStep s' v) :=
  hR.setReg .pc v hs

theorem writeRegStep_related (hR : KeptByWrites R) (hs : R s s') (d : Reg) (v : Byte) :
    R (writeRegStep s d v) (writeRegStep s' d v) := by
  by_cases hd : d = .pc
  · subst hd
    exact hR.setReg .pc v hs
  · rw [writeRegStep_of_ne s d v hd, writeRegStep_of_ne s' d v hd]
    exact hR.advance (hR.setReg d v hs)

theorem aluWriteBack_related (hR : KeptByWrites R) (hs : R s s') (d : Reg) (r : Byte) :
    R (aluWriteBack s d r) (aluWriteBack s' d r) := by
  rw [aluWriteBack_eq, aluWriteBack_eq]
  exact hR.writeZ _ (hR.writeRegStep_related hs d r)

theorem aluPair_related (hR : KeptByWrites R) (hs : R s s') (op : AluOp) (d e : Key) :
    BothNext R (aluPair op d e s) (aluPair op d e s') := by
  cases d with
  | unresolved => exact ⟨_, _, rfl, rfl, hR.noOp_related hs⟩
  | resolved q =>
    cases e with
    | unresolved => exact ⟨_, _, rfl, rfl, hR.noOp_related hs⟩
    | resolved r =>
      refine ⟨_, _, rfl, rfl, ?_⟩
      rw [hR.operand_eq hs, hR.operand_eq hs]
      exact hR.aluWriteBack_related hs q _

theorem aluSingle_related (hR : KeptByWrites R) (hs : R s s') (op : AluOp) (d : Key) :
    BothNext R (aluSingle op d s) (aluSingle op d s') := by
  cases d with
  | unresolved => exact ⟨_, _, rfl, rfl, hR.noOp_related hs⟩
  | resolved q =>
    refine ⟨_, _, rfl, rfl, ?_⟩
    rw [hR.operand_eq hs]
    exact hR.aluWriteBack_related hs q _

/-- Every instruction answers next states on two related states that read alike, and these are related. -/
theorem exec_related (hR : KeptByWrites R) (hs : R s s') {i : Instr} (hi : ReadAlike R i s s') :
    BothNext R (exec i s) (exec i s') := by
  cases i with
  | add d e | sub d e | and d e | or d e | xor d e => exact hR.aluPair_related hs _ d e
  | inc d | dec d | cpl d | rr d | rl d => exact hR.aluSingle_related hs _ d
  | jmp v => exact ⟨_, _, rfl, rfl, hR.jumpStep_related hs v⟩
  | ret =>
    refine ⟨_, _, rfl, rfl, ?_⟩
    rw [hR.operand_eq hs]
    exact hR.jumpStep_related hs _
  | call v =>
    refine ⟨_, _, rfl, rfl, ?_⟩
    rw [hR.nextPc_eq hs]
    exact hR.jumpStep_related (hR.setReg .sp _ hs) v
  | jz v =>
    simp only [exec, execJz, hi.flag rfl]
    cases s.z
    · exact ⟨_, _, rfl, rfl, hR.noOp_related hs⟩
    · exact ⟨_, _, rfl, rfl, hR.jumpStep_related hs v⟩
  | store d e =>
    cases d <;> cases e
    · refine ⟨_, _, rfl, rfl, ?_⟩
      rw [hR.operand_eq hs, hR.operand_eq hs, storeStep_eq, storeStep_eq]
      exact hR.advance (hR.memWrite _ _ hs)
    all_goals exact ⟨_, _, rfl, rfl, hR.noOp_related hs⟩
  | load d e =>
    cases d <;> cases e
    · refine ⟨_, _, rfl, rfl, ?_⟩
      rw [hR.operand_eq hs, hi.memory rfl]
      exact hR.writeRegStep_related hs _ _
    all_goals exact ⟨_, _, rfl, rfl, hR.noOp_related hs⟩
  | mov d e =>
    cases d <;> cases e
    · refine ⟨_, _, rfl, rfl, ?_⟩
      rw [hR.operand_eq hs]
      exact hR.writeRegStep_related hs _ _
    all_goals exact ⟨_, _, rfl, rfl, hR.noOp_related hs⟩
  | set v => exact ⟨_, _, rfl, rfl, hR.writeRegStep_related hs .ac v⟩
  | output =>
    refine ⟨_, _, rfl, rfl, ?_⟩
    rw [hR.operand_eq hs]
    exact hR.writeRegStep_related hs .rs _
  | input =>
    obtain ⟨hsw, hdrop⟩ := hi.sample rfl
    refine ⟨_, _, rfl, rfl, ?_⟩
    rw [hsw]
    exact hR.writeRegStep_related hdrop .ac _

/-- A Step of two related states that halt alike, decode alike and read alike leaves related states. -/
theorem step_related (hR : KeptByWrites R) (hs : R s s') (hhalted : s'.halted = s.halted)
    (hdecode : s.halted = false → decode s'.params s'.fetch = decode s.params s.fetch)
    (hread : ∀ i, s.halted = false → decode s.params s.fetch = .ok i → ReadAlike R i s s') :
    BothNext R (step s) (step s') := by
  cases hh : s.halted with
  | true =>
    rw [step_of_halted hh, step_of_halted (hhalted.trans hh)]
    exact ⟨_, _, rfl, rfl, hs⟩
  | false =>
    cases hd : decode s.params s.fetch with
    | ok i =>
      rw [step_of_decode_ok hh hd, step_of_decode_ok (hhalted.trans hh) ((hdecode hh).trans hd)]
      exact hR.exec_related hs (hread i hh hd)
    | error r =>
      rw [step_of_decode_error hh hd, step_of_decode_error (hhalted.trans hh) ((hdecode hh).trans hd)]
      exact ⟨_, _, rfl, rfl, hR.noOp_related hs⟩

end KeptByWrites

/-! ## Three such relations -/

/-- The two states differ at most in Z. -/
def SameButZ (s s' : State) : Prop := ∃ b, s' = { s with z := b }

/-- The two states differ at most in the listed switch samples. -/
def SameButSamples (s s' : State) : Prop := ∃ vs, s' = s.supplySwitches vs

/-- The second state is the first with `m` as its program store. -/
def WithProgram (m : ProgramStore) (s s' : State) : Prop := s' = { s with prog := m }

theorem sameButZ_keptByWrites : KeptByWrites SameButZ where
  reg := by rintro s _ ⟨b, rfl⟩ r; rfl
  params := by rintro s _ ⟨b, rfl⟩; rfl
  setReg := by rintro s _ r v ⟨b, rfl⟩; exact ⟨b, by cases r <;> rfl⟩
  advance := by rintro s _ ⟨b, rfl⟩; exact ⟨b, rfl⟩
  writeZ := by rintro s _ c ⟨b, rfl⟩; exact ⟨c, rfl⟩
  memWrite := by rintro s _ a v ⟨b, rfl⟩; exact ⟨b, rfl⟩

theorem sameButSamples_keptByWrites : KeptByWrites SameButSamples where
  reg := by rintro s _ ⟨vs, rfl⟩ r; rfl
  params := by rintro s _ ⟨vs, rfl⟩; rfl
  setReg := by rintro s _ r v ⟨vs, rfl⟩; exact ⟨vs, by cases r <;> rfl⟩
  advance := by rintro s _ ⟨vs, rfl⟩; exact ⟨vs, rfl⟩
  writeZ := by rintro s _ b ⟨vs, rfl⟩; exact ⟨vs, rfl⟩
  memWrite := by rintro s _ a v ⟨vs, rfl⟩; exact ⟨vs, rfl⟩

theorem withProgram_keptByWrites (m : ProgramStore) : KeptByWrites (WithProgram m) where
  reg := by rintro s _ rfl r; rfl
  params := by rintro s _ rfl; rfl
  setReg := by rintro s _ r v rfl; cases r <;> rfl
  advance := by rintro s _ rfl; rfl
  writeZ := by rintro s _ b rfl; rfl
  memWrite := by rintro s _ a v rfl; rfl

theorem dropSample_withZ (s : State) (b : Bool) :
    ({ s with z := b } : State).dropSample = { s.dropSample with z := b } := by
  cases h : s.swInputs <;> simp [State.dropSample, h]

theorem dropSample_withProgram (s : State) (m : ProgramStore) :
    ({ s with prog := m } : State).dropSample = { s.dropSample with prog := m } := by
  cases h : s.swInputs <;> simp [State.dropSample, h]

/-- No instruction but JZ reads Z (R24). -/
theorem readAlike_sameButZ {i : Instr} (hi : i.op ≠ .jz) (s : State) (b : Bool) :
    ReadAlike SameButZ i s { s with z := b } where
  flag h := absurd h hi
  memory _ _ := rfl
  sample _ := ⟨rfl, b, dropSample_withZ s b⟩

/-- No instruction but IN reads the switch samples (R43). -/
theorem readAlike_sameButSamples {i : Instr} (hi : i.op ≠ .input) (s : State) (vs : List Byte) :
    ReadAlike SameButSamples i s (s.supplySwitches vs) where
  flag _ := rfl
  memory _ _ := rfl
  sample h := absurd h hi

/-- No instruction reads the program store; only the fetch does (R41). -/
theorem readAlike_withProgram (i : Instr) (s : State) (m : ProgramStore) :
    ReadAlike (WithProgram m) i s { s with prog := m } where
  flag _ := rfl
  memory _ _ := rfl
  sample _ := ⟨rfl, dropSample_withProgram s m⟩

theorem eq_input_of_op {i : Instr} (h : i.op = .input) : i = .input := by
  cases i <;> cases h
  rfl

/-- With any two samples, a Step that does not execute IN does the same but for the samples (R43). -/
theorem step_sameButSamples {s : State} (h : s.halted = true ∨ decode s.params s.fetch ≠ .ok .input)
    (vs : List Byte) : BothNext SameButSamples (step s) (step (s.supplySwitches vs)) := by
  refine sameButSamples_keptByWrites.step_related ⟨vs, rfl⟩ rfl (fun _ => rfl) fun i hh hi => ?_
  refine readAlike_sameButSamples (fun hop => ?_) s vs
  rcases h with h | h
  · simp [hh] at h
  · exact h (eq_input_of_op hop ▸ hi)

/-! ## The canonical form of a sparse store -/

/-- In the canonical form an entry of an address is what the address reads as (R49). -/
theorem sparseRead_of_mem {w : Nat} {d : BitVec w} {m : List (Nat × BitVec w)} {c : Nat × BitVec w}
    (hm : m.Pairwise (fun c c' => c.1 < c'.1)) (hc : c ∈ m) : sparseRead d m c.1 = c.2 := by
  induction m with
  | nil => simp at hc
  | cons x m ih =>
    obtain ⟨hx, hm⟩ := List.pairwise_cons.mp hm
    rw [sparseRead_cons]
    rcases List.mem_cons.mp hc with rfl | hc
    · simp
    · rw [if_neg (hx c hc).ne, ih hm hc]

/-- In the canonical form the entries are the addresses below the size that do not read as unlisted. -/
theorem mem_iff_of_sparseWf {w size : Nat} {dflt : Nat → BitVec w} {m : List (Nat × BitVec w)}
    (h : sparseWf size dflt m) (c : Nat × BitVec w) :
    c ∈ m ↔ c.1 < size ∧ sparseRead (dflt c.1) m c.1 = c.2 ∧ c.2 ≠ dflt c.1 := by
  obtain ⟨hsorted, hentries⟩ := h
  constructor
  · intro hc
    exact ⟨(hentries c hc).1, sparseRead_of_mem hsorted hc, (hentries c hc).2⟩
  · rintro ⟨-, hread, hne⟩
    by_contra hc
    have hno : ∀ c' ∈ m, c'.1 ≠ c.1 := by
      rintro ⟨a, v⟩ hmem rfl
      have hv : v = c.2 := (sparseRead_of_mem hsorted hmem).symm.trans hread
      exact hc (by rw [← Prod.mk.eta (p := c), ← hv]; exact hmem)
    exact hne (hread.symm.trans (sparseRead_of_not_mem _ m c.1 hno))

/-- Two stores in canonical form that read alike at every address below the size are equal. -/
theorem eq_of_sparseWf_of_reads {w size : Nat} {dflt : Nat → BitVec w} {m m' : List (Nat × BitVec w)}
    (h : sparseWf size dflt m) (h' : sparseWf size dflt m')
    (hreads : ∀ a, a < size → sparseRead (dflt a) m a = sparseRead (dflt a) m' a) : m = m' := by
  have : Std.Irrefl fun c c' : Nat × BitVec w => c.1 < c'.1 := ⟨fun c => Nat.lt_irrefl c.1⟩
  have : Std.Antisymm fun c c' : Nat × BitVec w => c.1 < c'.1 := ⟨fun _ _ hab hba => absurd hba (Nat.lt_asymm hab)⟩
  refine List.Pairwise.eq_of_mem_iff h.1 h'.1 fun c => ?_
  rw [mem_iff_of_sparseWf h, mem_iff_of_sparseWf h']
  refine and_congr_right fun hc => ?_
  rw [hreads c.1 hc]

/-! ## The well-formed states -/

theorem ovf_eq_of_advanced_wrap {s t : State} (hp : s.params.pcOverflow = .wrap) (h : Advanced s t) :
    t.ovf = s.ovf := by
  rw [h.2]
  simp [hp]

/-- An instruction leaves `ovf` as it was under `PC_OVERFLOW = wrap` (R29, R33). -/
theorem exec_ovf_of_wrap {i : Instr} {s t : State} (hp : s.params.pcOverflow = .wrap) (h : exec i s = .next t) :
    t.ovf = s.ovf := by
  obtain ⟨hadvance, hkept⟩ := exec_counterRule h
  cases hw : i.writesCounter s.z with
  | true => exact hkept hw
  | false => exact ovf_eq_of_advanced_wrap hp (hadvance hw)

theorem wellFormed_of_sameProgram {s t : State} (hs : s.WellFormed) (hprog : SameProgram s t)
    (hmem : Memory.wf s.params t.mem) (hovf : s.params.pcOverflow = .wrap → t.ovf = s.ovf) : t.WellFormed := by
  obtain ⟨hstore, -, hparams⟩ := hprog
  exact {
    params := hparams ▸ hs.params
    mem := hparams ▸ hmem
    prog := hstore ▸ hs.prog
    ovf := fun hp => by
      rw [hparams] at hp
      rw [hovf hp, hs.ovf hp] }

theorem exec_wellFormed {i : Instr} {s t : State} (hs : s.WellFormed) (h : exec i s = .next t) : t.WellFormed := by
  refine wellFormed_of_sameProgram hs (exec_sameProgram h) ?_ (fun hp => exec_ovf_of_wrap hp h)
  rcases exec_mem h with hm | ⟨a, v, hm⟩ <;> rw [hm]
  · exact hs.mem
  · exact State.memWrite_wf hs.mem a v

theorem noOp_wellFormed {s : State} (hs : s.WellFormed) : (noOp s).WellFormed :=
  wellFormed_of_sameProgram hs ⟨rfl, rfl, rfl⟩ hs.mem fun hp => ovf_eq_of_advanced_wrap hp ⟨rfl, rfl⟩

theorem afterReset_wellFormed {p : Params} (hp : p.wellFormed) : (State.afterReset p).WellFormed where
  params := hp
  mem := sparseWf_nil _ _
  prog := sparseWf_nil _ _
  ovf _ := rfl

theorem defaultParams_wellFormed : defaultParams.wellFormed := by decide

/-! ## The statements -/

/-- Settles O43: the Step lemma over the Step's three cases. -/
theorem stepKeepsWellFormedStates : Obligations.StepKeepsWellFormedStates := by
  intro s t hs h
  rcases step_cases h with ⟨-, rfl⟩ | ⟨-, i, -, hi⟩ | ⟨-, -, rfl⟩
  · exact hs
  · exact exec_wellFormed hs hi
  · exact noOp_wellFormed hs

/-- Settles O11: the writers of Z by the instructions' ALU destination, its reader by relating states that differ
in Z. -/
theorem zeroFlagIsWrittenByTheAluAndReadByJz : Obligations.ZeroFlagIsWrittenByTheAluAndReadByJz := by
  refine ⟨?_, ?_, aluDest_isSome, ?_, fun s a => ⟨⟨_, rfl, rfl⟩, ⟨_, rfl, rfl⟩⟩⟩
  · intro i s t d hd h
    obtain ⟨halu, -⟩ := isAlu_and_wellFormed_of_aluDest hd
    rcases exec_of_isAlu halu h with ⟨hnone, -⟩ | ⟨d', r, hd', rfl⟩
    · simp [hd] at hnone
    · obtain rfl : d = d' := by simpa [hd] using hd'
      rw [aluWriteBack_z, reg_of_wroteOnly (aluWriteBack_wroteOnly s d r), zeroFlag]
  · intro i s t hi h
    refine exec_z_of_aluDest_eq_none ?_ h
    rcases hi with hi | hi <;> simpa [hi] using aluDest_isSome i
  · intro i s t b hi h
    obtain ⟨t', u, ht, hu, c, rfl⟩ := sameButZ_keptByWrites.exec_related ⟨b, rfl⟩ (readAlike_sameButZ hi s b)
    cases h.symm.trans ht
    exact ⟨_, hu, rfl⟩

/-- Settles O22: both Steps are related to one another by `SameButSamples`, and `stepWith` puts the samples back. -/
theorem onlyInReadsTheSwitches : Obligations.OnlyInReadsTheSwitches := by
  intro s v v' h
  have h' : (s.supplySwitches [v]).halted = true ∨
      decode (s.supplySwitches [v]).params (s.supplySwitches [v]).fetch ≠ .ok .input := h
  obtain ⟨t, u, ht, hu, vs, rfl⟩ := step_sameButSamples h' [v']
  have hu' : step (s.supplySwitches [v']) = .next (t.supplySwitches vs) := hu
  simp only [stepWith, ht, hu']
  rfl

/-- Settles O27, from the canonical form of any sparse store. -/
theorem canonicalMemoryIsDeterminedByItsReads : Obligations.CanonicalMemoryIsDeterminedByItsReads := by
  intro s m hs hm hreads
  refine eq_of_sparseWf_of_reads hs hm fun a ha => ?_
  simpa [State.cell, Nat.mod_eq_of_lt ha] using hreads (BitVec.ofNat 4 a)

/-- Settles O37. -/
theorem counterAdvancesUnlessWritten : Obligations.CounterAdvancesUnlessWritten :=
  fun _ _ _ h => exec_counterRule h

/-- Settles O38, from the advance of O37. -/
theorem advanceFromTheTopWrapsOrHalts : Obligations.AdvanceFromTheTopWrapsOrHalts := by
  intro i s t hpc hw h
  obtain ⟨htpc, htovf⟩ := (exec_counterRule h).1 hw
  obtain ⟨-, -, hparams⟩ := exec_sameProgram h
  refine ⟨by rw [htpc, hpc]; rfl, fun hp => exec_ovf_of_wrap hp h, fun hp => ?_⟩
  have hset : t.ovf = true := by simp [htovf, hp, hpc]
  exact t.halted_iff.mpr (.inr ⟨by rw [hparams, hp], hset⟩)

/-- Settles O41. -/
theorem noStepChangesTheProgram : Obligations.NoStepChangesTheProgram := by
  intro s t h
  rcases step_cases h with ⟨-, rfl⟩ | ⟨-, i, -, hi⟩ | ⟨-, -, rfl⟩
  · exact ⟨rfl, rfl, rfl⟩
  · exact exec_sameProgram hi
  · exact ⟨rfl, rfl, rfl⟩

/-- Settles O42: a running machine fetches below L, where the two stores agree. -/
theorem wordsBeyondTheLengthAreNeverFetched : Obligations.WordsBeyondTheLengthAreNeverFetched := by
  intro s t m hagree h
  have hdecode (hh : s.halted = false) :
      decode s.params ({ s with prog := m } : State).fetch = decode s.params s.fetch := by
    have hpc : s.pc.toNat < s.len.val := by
      by_contra hge
      simp [s.halted_iff.mpr (.inl (Nat.not_lt.mp hge))] at hh
    exact congrArg _ (hagree s.pc hpc)
  obtain ⟨t', u, ht, hu, rfl⟩ := (withProgram_keptByWrites m).step_related (s := s) rfl rfl hdecode
    fun i _ _ => readAlike_withProgram i s m
  cases h.symm.trans ht
  exact hu

/-- Settles O31. -/
theorem stepRunsTheDecodedInstruction : Obligations.StepRunsTheDecodedInstruction :=
  fun _ _ hh hi => step_of_decode_ok hh hi

/-- Settles O32. -/
theorem haltedStepChangesNothing : Obligations.HaltedStepChangesNothing :=
  ⟨State.halted_iff, fun _ h => step_of_halted h⟩

/-- Settles O39: MOV writes its source operand, which is the operand read of R21. -/
theorem pcOperandFollowsPcRead : Obligations.PcOperandFollowsPcRead := by
  intro s d e _
  have hd : (writeRegStep s d (s.operand e)).reg d = s.operand e := reg_of_wroteOnly (writeRegStep_wroteOnly s d _)
  refine ⟨_, rfl, fun he => ?_, fun he hp => ?_, fun he hp => ?_⟩ <;> rw [hd]
  · exact s.operand_of_ne_pc he
  · rw [he, State.operand_pc_next hp]
  · rw [he, State.operand_pc_current hp]

/-- Settles O44. -/
theorem resetStateIsWellFormed : Obligations.ResetStateIsWellFormed :=
  ⟨afterReset_wellFormed defaultParams_wellFormed, fun _ hp => afterReset_wellFormed hp⟩

/-- Settles O47. -/
theorem resetLeavesRegistersAndFlagZero : Obligations.ResetLeavesRegistersAndFlagZero := by
  refine ⟨fun r => ?_, rfl, fun s r => ?_, fun s => s.resetOp_z, fun s ws hlen => ?_⟩
  · cases r <;> rfl
  · cases r <;> rfl
  · rw [s.load_fits ws hlen]

end Sys2Proof.Machine
end

section
/-! The data memory and the loaded program: what the memory operations do to cells by address mod 16, which instructions
write and read the memory, and where a loaded program starts. -/

namespace Sys2Proof.Machine

/-! ## Cells by address (R48) -/

/-- Bits 7:4 of an address are ignored (R48). -/
@[simp] theorem toNat_cellOf (a : Byte) : (cellOf a).toNat = a.toNat % 16 := by
  simp [cellOf]

theorem eq_cellOf_iff (c : Cell) (a : Byte) : c = cellOf a ↔ c.toNat = a.toNat % 16 := by
  rw [← BitVec.toNat_inj, toNat_cellOf]

/-- The aliasing of byte addresses: a read sees the write exactly where both name one cell (R49, R50). -/
theorem State.memRead_memWrite_mod (s : State) (a b v : Byte) :
    (s.memWrite a v).memRead b = if b.toNat % 16 = a.toNat % 16 then v else s.memRead b := by
  simp only [State.memRead_memWrite, eq_cellOf_iff, toNat_cellOf]

@[simp] theorem State.advance_memRead (s : State) (a : Byte) : s.advance.memRead a = s.memRead a := rfl

/-! ## STORE and LOAD between named registers (R115, R116) -/

theorem exec_store_resolved (s : State) (d e : Reg) :
    exec (.store (.resolved d) (.resolved e)) s = .next (s.memWrite (s.operand d) (s.operand e)).advance := rfl

theorem exec_load_resolved (s : State) (d e : Reg) :
    exec (.load (.resolved d) (.resolved e)) s = .next (writeRegStep s d (s.memRead (s.operand e))) := rfl

/-! ## Who writes and who reads the memory (R51) -/

theorem eq_store_of_op {i : Instr} (h : i.op = .store) : ∃ d e, i = .store d e := by
  cases i <;> cases h
  exact ⟨_, _, rfl⟩

theorem eq_load_of_op {i : Instr} (h : i.op = .load) : ∃ d e, i = .load d e := by
  cases i <;> cases h
  exact ⟨_, _, rfl⟩

/-- Every shape of an instruction's next state but STORE's keeps the memory. -/
theorem exec_mem_of_op_ne_store {i : Instr} {s t : State} (hi : i.op ≠ .store) (h : exec i s = .next t) :
    t.mem = s.mem := by
  cases exec_shape h with
  | noOp => rfl
  | alu => simp
  | write => simp
  | jump => rfl
  | call => rfl
  | store a v hop => exact absurd hop hi
  | input => simp

/-- The two states differ at most in the data memory. -/
def SameButMemory (s s' : State) : Prop := ∃ m, s' = { s with mem := m }

theorem sameButMemory_keptByWrites : KeptByWrites SameButMemory where
  reg := by rintro s _ ⟨m, rfl⟩ r; rfl
  params := by rintro s _ ⟨m, rfl⟩; rfl
  setReg := by rintro s _ r v ⟨m, rfl⟩; exact ⟨m, by cases r <;> rfl⟩
  advance := by rintro s _ ⟨m, rfl⟩; exact ⟨m, rfl⟩
  writeZ := by rintro s _ b ⟨m, rfl⟩; exact ⟨m, rfl⟩
  memWrite := by rintro s _ a v ⟨m, rfl⟩; exact ⟨_, rfl⟩

theorem dropSample_withMemory (s : State) (m : Memory) :
    ({ s with mem := m } : State).dropSample = { s.dropSample with mem := m } := by
  cases h : s.swInputs <;> simp [State.dropSample, h]

/-- No instruction but LOAD reads the data memory (R51). -/
theorem readAlike_sameButMemory {i : Instr} (hi : i.op ≠ .load) (s : State) (m : Memory) :
    ReadAlike SameButMemory i s { s with mem := m } where
  flag _ := rfl
  memory h := absurd h hi
  sample _ := ⟨rfl, m, dropSample_withMemory s m⟩

/-! ## The program after a load (R134) -/

theorem State.load_pc {ws : List Word} (h : ws.length ≤ 256) (s : State) : (s.load ws).pc = 0x00 := by
  rw [s.load_fits ws h]

theorem State.load_ovf {ws : List Word} (h : ws.length ≤ 256) (s : State) : (s.load ws).ovf = false := by
  rw [s.load_fits ws h]

theorem State.load_len {ws : List Word} (h : ws.length ≤ 256) (s : State) : (s.load ws).len.val = ws.length := by
  rw [s.load_fits ws h]

theorem State.load_progAt {ws : List Word} (h : ws.length ≤ 256) (s : State) {a : Byte} (ha : a.toNat < ws.length) :
    (s.load ws).progAt a = ws[a.toNat] := by
  rw [s.load_fits ws h]
  simp [State.progAt, progWriteFrom_read, ha]

/-- After a load the machine is halted exactly where the program is empty: the counter is 0 and `ovf` clear (R31). -/
theorem State.load_halted_iff {ws : List Word} (h : ws.length ≤ 256) (s : State) :
    (s.load ws).halted = true ↔ ws = [] := by
  simp [State.halted_iff, State.load_pc h, State.load_ovf h, State.load_len h]

/-! ## The statements -/

/-- Settles O28: the writer by the shapes of an instruction's next state, the reader by relating states that differ in
the memory. -/
theorem onlyStoreWritesAndOnlyLoadReadsMemory : Obligations.OnlyStoreWritesAndOnlyLoadReadsMemory := by
  refine ⟨fun s t h hmem => ?_, fun s t m hload h => ?_⟩
  · rcases step_cases h with ⟨-, rfl⟩ | ⟨-, i, hi, hexec⟩ | ⟨-, -, rfl⟩
    · exact absurd rfl hmem
    · have hop : i.op = .store := by
        by_contra hne
        exact hmem (exec_mem_of_op_ne_store hne hexec)
      obtain ⟨d, e, rfl⟩ := eq_store_of_op hop
      exact ⟨d, e, hi⟩
    · exact absurd rfl hmem
  · have hread (i : Instr) (hi : decode s.params s.fetch = .ok i) :
        ReadAlike SameButMemory i s { s with mem := m } := by
      refine readAlike_sameButMemory (fun hop => ?_) s m
      obtain ⟨d, e, rfl⟩ := eq_load_of_op hop
      exact hload d e hi
    obtain ⟨t', u, ht, hu, m', rfl⟩ := sameButMemory_keptByWrites.step_related (s := s) ⟨m, rfl⟩ rfl (fun _ => rfl)
      fun i _ hi => hread i hi
    cases h.symm.trans ht
    exact ⟨_, hu, rfl⟩

/-- Settles O23, from the rule for reading a cell after a write. -/
theorem memWriteSetsOneCellAndMemReadReadsIt : Obligations.MemWriteSetsOneCellAndMemReadReadsIt := by
  refine ⟨fun s a v c => ?_, fun s a c hc => ?_, fun s a v => rfl⟩
  · simp only [State.cell_memWrite, eq_cellOf_iff]
  · rw [State.memRead_eq, (eq_cellOf_iff c a).mpr hc]

/-- Settles O26: LOAD writes what it reads from the memory STORE left. -/
theorem loadAfterStoreSeesIt : Obligations.LoadAfterStoreSeesIt := by
  intro s t u d e f g _ hstore hload
  rw [exec_store_resolved] at hstore
  rw [exec_load_resolved] at hload
  cases hload
  have hread (a : Byte) :
      t.memRead a = if a.toNat % 16 = (s.operand d).toNat % 16 then s.operand e else s.memRead a := by
    cases hstore
    rw [State.advance_memRead, State.memRead_memWrite_mod]
  rw [reg_of_wroteOnly (writeRegStep_wroteOnly t f _), hread]

/-- Settles O50: a program that is not empty does not halt, and its word at address 0 is its first. -/
theorem loadedProgramStartsAtItsFirstWord : Obligations.LoadedProgramStartsAtItsFirstWord := by
  intro s w ws hlen
  have hfits : (w :: ws).length ≤ 256 := hlen
  constructor
  · rw [← Bool.not_eq_true, State.load_halted_iff hfits]
    exact List.cons_ne_nil w ws
  · rw [State.fetch, State.load_pc hfits]
    exact State.load_progAt hfits s (a := 0x00) (Nat.zero_lt_succ _)

end Sys2Proof.Machine
end

section
/-! The codec: what decode and encode do on all words, stated by the operand class of the mnemonic, and the statements
about words, instructions and the words that are none. -/

namespace Sys2Proof

open Sys2Proof.Machine

/-! ## Fields as arithmetic on the word (R62) -/

theorem toNat_highField (w : Word) : (highField w).toNat = w.toNat / 2 ^ 13 % 2 ^ 3 := by
  simp [highField, Nat.shiftRight_eq_div_pow]

theorem toNat_opcodeField (w : Word) : (opcodeField w).toNat = w.toNat / 2 ^ 8 % 2 ^ 5 := by
  simp [opcodeField, Nat.shiftRight_eq_div_pow]

theorem toNat_destField (w : Word) : (destField w).toNat = w.toNat / 2 ^ 4 % 2 ^ 4 := by
  simp [destField, Nat.shiftRight_eq_div_pow]

theorem toNat_srcField (w : Word) : (srcField w).toNat = w.toNat % 2 ^ 4 := by
  simp [srcField]

/-! ## The two ways to reject a word (R69, R75) -/

theorem highBitsReject_iff {p : Params} {w : Word} :
    highBitsReject p w = true ↔ p.highBits = .unrecognized ∧ highField w ≠ 0#3 := by
  unfold highBitsReject
  cases p.highBits <;> simp

theorem highBitsReject_eq_false {p : Params} {w : Word} :
    highBitsReject p w = false ↔ p.highBits = .ignore ∨ highField w = 0#3 := by
  unfold highBitsReject
  cases p.highBits <;> simp

theorem opcodeMap_eq_none {p : Params} {v : OpcodeValue} : opcodeMap p v = none ↔ ∀ o, opcodeOf p o ≠ v := by
  simp [opcodeMap, Op.mem_all]

theorem decode_eq_error {p : Params} {w : Word} {r : DecodeReject} :
    decode p w = .error r ↔
      (highBitsReject p w = true ∧ r = .highBitsSet (highField w)) ∨
        (highBitsReject p w = false ∧ opcodeMap p (opcodeField w) = none ∧
          r = .unrecognizedOpcode (opcodeField w)) := by
  unfold decode decodeFields
  cases highBitsReject p w with
  | true => simp [eq_comm]
  | false => cases opcodeMap p (opcodeField w) <;> simp [eq_comm]

/-- The opcode values with no row under the defaults (R77, D9). -/
theorem opcodeMap_default_eq_none :
    ∀ v : OpcodeValue, opcodeMap defaultParams v = none ↔ 0x0A ≤ v.toNat ∧ v.toNat ≤ 0x15 := by
  decide

/-! ## Instructions by their operand class (R65) -/

@[simp] theorem op_instrOf (o : Op) (d s : Key) (v : Byte) : (instrOf o d s v).op = o := by
  cases o <;> rfl

/-- An instruction depends only on the decoded fields that its class uses (R65, R73). -/
theorem instrOf_congr {o : Op} {d d' s s' : Key} {v v' : Byte}
    (hd : o.opClass = .rr ∨ o.opClass = .r1 → d = d') (hs : o.opClass = .rr → s = s')
    (hv : o.opClass = .imm ∨ o.opClass = .addr → v = v') : instrOf o d s v = instrOf o d' s' v' := by
  cases o with
  | add | sub | and | or | xor | store | load | mov => rw [hd (.inl rfl), hs rfl]; rfl
  | inc | dec | cpl | rr | rl => rw [hd (.inr rfl)]; rfl
  | set => rw [hv (.inl rfl)]; rfl
  | call | jz | jmp => rw [hv (.inr rfl)]; rfl
  | ret | input | output => rfl

/-- The data byte that a class makes of the decoded fields (R65). -/
def classByte (p : Params) : OpClass → Key → Key → Byte → Option Byte
  | .rr, d, s, _ => pairByte p d s
  | .r1, d, _, _ => pairByte p d d
  | .imm, _, _, v => some v
  | .addr, _, _, v => some v
  | .noOperand, _, _, _ => some 0x00

theorem dataByte_instrOf (p : Params) (o : Op) (d s : Key) (v : Byte) :
    dataByte p (instrOf o d s v) = classByte p o.opClass d s v := by
  cases o <;> rfl

/-- Whether the fields of a word are ones its class encodes (R72). -/
def classCanonical (p : Params) (w : Word) : OpClass → Bool
  | .rr => (keyOf p (destField w)).isResolved && (keyOf p (srcField w)).isResolved
  | .r1 => (keyOf p (destField w)).isResolved && srcField w == destField w
  | .imm => true
  | .addr => true
  | .noOperand => dataField w == 0#8

theorem canonical_iff {p : Params} {w : Word} :
    canonical p w = true ↔
      highField w = 0#3 ∧ ∃ o, opcodeMap p (opcodeField w) = some o ∧ classCanonical p w o.opClass = true := by
  unfold canonical
  cases opcodeMap p (opcodeField w) with
  | none => simp
  | some o => cases hc : o.opClass <;> simp [classCanonical, hc]

theorem pairByte_keyOf {p : Params} {m n : Nibble} (hm : (keyOf p m).isResolved = true)
    (hn : (keyOf p n).isResolved = true) : pairByte p (keyOf p m) (keyOf p n) = some (packPair m n) := by
  obtain ⟨q, hq⟩ := (isResolved_iff _).mp hm
  obtain ⟨r, hr⟩ := (isResolved_iff _).mp hn
  exact pairByte_eq_some.mpr ⟨q, r, hq, hr, by rw [keyOf_eq_resolved hq, keyOf_eq_resolved hr]⟩

theorem srcField_eq_of_dataField {w : Word} {m n : Nibble} (h : packPair m n = dataField w) : srcField w = n := by
  have hd : packPair (destField w) (srcField w) = packPair m n := (packPair_fields w).trans h.symm
  simpa using congrArg (fun b => srcField (packWord 0 b)) hd

/-- The fields of a word are ones its class encodes exactly where encoding them again gives its data byte. -/
theorem classCanonical_iff {p : Params} {w : Word} {c : OpClass} :
    classCanonical p w c = true ↔
      classByte p c (keyOf p (destField w)) (keyOf p (srcField w)) (dataField w) = some (dataField w) := by
  cases c with
  | rr =>
    simp only [classCanonical, classByte, Bool.and_eq_true]
    constructor
    · rintro ⟨hd, hs⟩
      rw [pairByte_keyOf hd hs, packPair_fields]
    · intro h
      obtain ⟨q, r, hq, hr, -⟩ := pairByte_eq_some.mp h
      rw [hq, hr]
      exact ⟨rfl, rfl⟩
  | r1 =>
    simp only [classCanonical, classByte, Bool.and_eq_true, beq_iff_eq]
    constructor
    · rintro ⟨hd, hs⟩
      rw [pairByte_keyOf hd hd, ← packPair_fields, hs]
    · intro h
      have hd : (keyOf p (destField w)).isResolved = true := by
        obtain ⟨q, -, hq, -, -⟩ := pairByte_eq_some.mp h
        rw [hq]
        rfl
      rw [pairByte_keyOf hd hd, Option.some.injEq] at h
      exact ⟨hd, srcField_eq_of_dataField h⟩
  | imm | addr => simp [classCanonical, classByte]
  | noOperand =>
    simp only [classCanonical, classByte, beq_iff_eq, Option.some.injEq]
    exact eq_comm

/-! ## Decode after encode, and encode after decode (R71) -/

theorem encode_isSome (p : Params) (i : Instr) : (encode p i).isSome = i.wellFormed := by
  cases i with
  | add d s => exact (Laws.EncodeLayout.add d s p).1
  | sub d s => exact (Laws.EncodeLayout.sub d s p).1
  | inc d => exact (Laws.EncodeLayout.inc d p).1
  | dec d => exact (Laws.EncodeLayout.dec d p).1
  | cpl d => exact (Laws.EncodeLayout.cpl d p).1
  | and d s => exact (Laws.EncodeLayout.and d s p).1
  | or d s => exact (Laws.EncodeLayout.or d s p).1
  | xor d s => exact (Laws.EncodeLayout.xor d s p).1
  | rr d => exact (Laws.EncodeLayout.rr d p).1
  | rl d => exact (Laws.EncodeLayout.rl d p).1
  | store d s => exact (Laws.EncodeLayout.store d s p).1
  | load d s => exact (Laws.EncodeLayout.load d s p).1
  | mov d s => exact (Laws.EncodeLayout.mov d s p).1
  | call | ret | jz | output | input | set | jmp => rfl

/-- The fields of an encoded instruction give that instruction back. -/
theorem instrOf_fields_of_dataByte {p : Params} (h : p.wellFormed) {i : Instr} {b : Byte} {w : Word}
    (hb : dataByte p i = some b) (hw : w = packWord (opcodeOf p i.op) b) :
    instrOf i.op (keyOf p (destField w)) (keyOf p (srcField w)) (dataField w) = i := by
  subst hw
  cases i with
  | add d s | sub d s | and d s | or d s | xor d s | store d s | load d s | mov d s =>
    obtain ⟨q, r, rfl, rfl, rfl⟩ := pairByte_eq_some.mp hb
    simp [keyOf_regNibble h, instrOf, Instr.op]
  | inc d | dec d | cpl d | rr d | rl d =>
    obtain ⟨q, -, rfl, -, rfl⟩ := pairByte_eq_some.mp hb
    simp [keyOf_regNibble h, instrOf, Instr.op]
  | call t | jz t | set t | jmp t =>
    cases hb
    simp [instrOf, Instr.op]
  | ret | output | input => rfl

/-- A word decodes to the mnemonic of its opcode, with the operands of its fields (R69, R74). -/
theorem decode_of_opcodeField {p : Params} (h : p.wellFormed) {w : Word}
    (hh : p.highBits = .ignore ∨ highField w = 0#3) {o : Op} (ho : opcodeField w = opcodeOf p o) :
    decode p w = .ok (instrOf o (keyOf p (destField w)) (keyOf p (srcField w)) (dataField w)) :=
  decode_eq_ok.mpr ⟨highBitsReject_eq_false.mpr hh, o, by rw [ho, opcodeMap_opcodeOf h], rfl⟩

theorem decode_of_encode {p : Params} (h : p.wellFormed) {i : Instr} {w : Word} (he : encode p i = some w) :
    decode p w = .ok i := by
  obtain ⟨hhigh, hopcode⟩ := Laws.encodeLayout_word he
  obtain ⟨b, hb, hw⟩ := encode_eq_some.mp he
  rw [decode_of_opcodeField h (.inr hhigh) hopcode, instrOf_fields_of_dataByte h hb hw]

/-- Encoding the instruction of a word gives the word back exactly where its high bits are zero and its fields are ones
its class encodes. -/
theorem encode_instrOf_fields {p : Params} {w : Word} {o : Op} (ho : opcodeMap p (opcodeField w) = some o) :
    encode p (instrOf o (keyOf p (destField w)) (keyOf p (srcField w)) (dataField w)) = some w ↔
      highField w = 0#3 ∧ classCanonical p w o.opClass = true := by
  rw [encode_eq_some, dataByte_instrOf, op_instrOf, opcodeMap_eq_some ho, classCanonical_iff]
  constructor
  · rintro ⟨b, hb, hw⟩
    have hdata : dataField w = b := by rw [hw, dataField_packWord]
    exact ⟨by rw [hw, highField_packWord], by rw [hb, hdata]⟩
  · rintro ⟨hhigh, hb⟩
    exact ⟨_, hb, (packWord_fields w hhigh).symm⟩

theorem decode_encode_iff_canonical {p : Params} {w : Word} :
    (∃ i, decode p w = .ok i ∧ encode p i = some w) ↔ canonical p w = true := by
  rw [canonical_iff]
  constructor
  · rintro ⟨i, hi, he⟩
    obtain ⟨-, o, ho, rfl⟩ := decode_eq_ok.mp hi
    obtain ⟨hhigh, hc⟩ := (encode_instrOf_fields ho).mp he
    exact ⟨hhigh, o, ho, hc⟩
  · rintro ⟨hhigh, o, ho, hc⟩
    exact ⟨_, decode_eq_ok.mpr ⟨highBitsReject_eq_false.mpr (.inr hhigh), o, ho, rfl⟩,
      (encode_instrOf_fields ho).mpr ⟨hhigh, hc⟩⟩

theorem canonical_of_encode {p : Params} (h : p.wellFormed) {i : Instr} {w : Word} (he : encode p i = some w) :
    canonical p w = true :=
  decode_encode_iff_canonical.mp ⟨i, decode_of_encode h he, he⟩

/-! ## Instructions with an operand that names no register (R76) -/

theorem exec_of_not_wellFormed {i : Instr} (h : i.wellFormed = false) (s : State) : exec i s = .next (noOp s) := by
  cases i with
  | add d e | sub d e | and d e | or d e | xor d e | store d e | load d e | mov d e =>
    cases d with
    | unresolved => rfl
    | resolved q =>
      cases e with
      | unresolved => rfl
      | resolved r => cases h
  | inc d | dec d | cpl d | rr d | rl d =>
    cases d with
    | unresolved => rfl
    | resolved q => cases h
  | call | ret | jz | output | input | set | jmp => cases h

/-! ## The statements -/

/-- Settles O1. -/
theorem decodeOfEncodeIsTheInstruction : Obligations.DecodeOfEncodeIsTheInstruction := by
  refine fun p h => ⟨fun i hi => ?_, fun w => decode_encode_iff_canonical⟩
  obtain ⟨w, he⟩ := Option.isSome_iff_exists.mp ((encode_isSome p i).trans hi)
  exact ⟨w, he, decode_of_encode h he⟩

/-- Settles O2. -/
theorem unrecognizedWordsAreThoseWithNoRow : Obligations.UnrecognizedWordsAreThoseWithNoRow := by
  have hreject (p : Params) (w : Word) :
      (∃ r, decode p w = .error r) ↔ highBitsReject p w = true ∨ opcodeMap p (opcodeField w) = none := by
    cases hr : highBitsReject p w <;> simp [decode_eq_error, hr]
  refine ⟨fun p w => ?_, fun w => ?_⟩
  · rw [hreject, highBitsReject_iff, opcodeMap_eq_none]
  · rw [hreject, opcodeMap_default_eq_none]
    simp [highBitsReject, defaultParams]

/-- Settles O3: every field but bits 15:13 is a function of the word modulo 2^13. -/
theorem highBitsParameterDecidesBits15To13 : Obligations.HighBitsParameterDecidesBits15To13 := by
  refine fun p => ⟨fun hp w w' hw => ?_, fun hp w hw => ?_⟩
  · have hopcode : opcodeField w = opcodeField w' :=
      BitVec.eq_of_toNat_eq (by rw [toNat_opcodeField, toNat_opcodeField]; omega)
    have hdest : destField w = destField w' :=
      BitVec.eq_of_toNat_eq (by rw [toNat_destField, toNat_destField]; omega)
    have hsrc : srcField w = srcField w' :=
      BitVec.eq_of_toNat_eq (by rw [toNat_srcField, toNat_srcField]; omega)
    have hdata : dataField w = dataField w' := by
      rw [← packPair_fields, ← packPair_fields, hdest, hsrc]
    simp [decode, decodeFields, highBitsReject, hp, hopcode, hdest, hsrc, hdata]
  · have hhigh : highField w ≠ 0#3 := by
      intro h
      have h0 := congrArg BitVec.toNat h
      rw [toNat_highField, BitVec.toNat_ofNat] at h0
      have := w.isLt
      omega
    exact decode_eq_error.mpr (.inl ⟨highBitsReject_iff.mpr ⟨hp, hhigh⟩, rfl⟩)

/-- Settles O4: the two words have the same bits 15:8, and the class does not use the fields that may differ. -/
theorem ignoredFieldsDoNotChangeTheInstruction : Obligations.IgnoredFieldsDoNotChangeTheInstruction := by
  intro p w w' i hi hw
  obtain ⟨hreject, o, ho, rfl⟩ := decode_eq_ok.mp hi
  have hhigh : highField w' = highField w :=
    BitVec.eq_of_toNat_eq (by rw [toNat_highField, toNat_highField]; omega)
  have hopcode : opcodeField w' = opcodeField w :=
    BitVec.eq_of_toNat_eq (by rw [toNat_opcodeField, toNat_opcodeField, hw])
  have hreject' : highBitsReject p w' = false := by simpa [highBitsReject, hhigh] using hreject
  rw [op_instrOf]
  constructor
  · intro hc hdest
    exact decode_eq_ok.mpr ⟨hreject', o, hopcode ▸ ho,
      instrOf_congr (fun _ => by rw [hdest]) (by simp [hc]) (by simp [hc])⟩
  · intro hc
    exact decode_eq_ok.mpr ⟨hreject', o, hopcode ▸ ho,
      instrOf_congr (by simp [hc]) (by simp [hc]) (by simp [hc])⟩

/-- Settles O29. -/
theorem unresolvedOperandsMakeANoOp : Obligations.UnresolvedOperandsMakeANoOp :=
  fun _ s h => ⟨_, exec_of_not_wellFormed h s, noOp_onlyAdvanced s⟩

/-- Settles O55: each clause is `decode_of_opcodeField` at its mnemonic. -/
theorem eachOpcodeDecodesToItsMnemonic : Obligations.EachOpcodeDecodesToItsMnemonic := by
  refine ⟨?_, fun p n r h => ⟨keyOf_eq_resolved, ?_⟩⟩
  · rintro p w _ _ _ h hh rfl rfl rfl
    have hdecode (o : Op) (ho : opcodeField w = opcodeOf p o) :=
      decode_of_opcodeField h hh ho
    exact ⟨hdecode .add, hdecode .sub, hdecode .inc, hdecode .dec, hdecode .cpl, hdecode .and, hdecode .or,
      hdecode .xor, hdecode .rr, hdecode .rl, hdecode .call, hdecode .ret, hdecode .jz, hdecode .store, hdecode .load,
      hdecode .output, hdecode .input, hdecode .set, hdecode .jmp, hdecode .mov⟩
  · rintro rfl
    exact keyOf_regNibble h r

/-- Settles O5, by evaluating the model on the fixed nibbles and words. -/
theorem sampleWordsDecodeRight : Obligations.SampleWordsDecodeRight := by
  have habsent : ∀ n : Nibble, 8 ≤ n.toNat → keyOf defaultParams n = .unresolved := by decide
  exact ⟨⟨rfl, rfl, rfl, rfl, rfl, rfl, rfl, rfl, habsent⟩, rfl, rfl, rfl, rfl, rfl, rfl, rfl, rfl, rfl, rfl, rfl, rfl,
    rfl, rfl, rfl, rfl, rfl, rfl, rfl, rfl, rfl, rfl, rfl, rfl⟩

/-- Settles O30. -/
theorem unrecognizedWordOnlyAdvancesTheCounter : Obligations.UnrecognizedWordOnlyAdvancesTheCounter :=
  fun s _ hh hr => ⟨_, step_of_decode_error hh hr, noOp_onlyAdvanced s⟩

end Sys2Proof
end

section
/-! The software that builds programs: what the assembler reads in a line of plain tokens, the disassembler's lines as
such lines, and the statements about the programs that assembly and hex-load give. -/

namespace Sys2Proof.Machine

/-! ## Plain tokens -/

/-- What of a line is split into tokens: its characters but the brackets, uppercased (R79, R80). -/
def normalize (t : Text) : Text := upper (t.filter (fun c => c != '[' && c != ']'))

theorem tokens_eq (t : Text) :
    tokens t = (splitText (fun c => c.isWhitespace || c == ',') (normalize t)).filter (fun piece => !piece.isEmpty) :=
  rfl

theorem normalize_append (a b : Text) : normalize (a ++ b) = normalize a ++ normalize b := by
  simp [normalize, upper]

theorem normalize_bracket {c : Char} (hc : c = '[' ∨ c = ']') (t : Text) : normalize (c :: t) = normalize t := by
  rcases hc with rfl | rfl <;> rfl

theorem normalize_separator {c : Char} (hc : c = ' ' ∨ c = ',') (t : Text) :
    normalize (c :: t) = c :: normalize t := by
  rcases hc with rfl | rfl <;> rfl

/-- A character that the reading of a line leaves alone: no separator, bracket, comment or label mark, and its own
uppercase form (R78 to R80). -/
def plainChar (c : Char) : Bool :=
  !(c.isWhitespace || c == ',') && (c != '[' && c != ']') && c.toUpper == c && c != ';' && c != ':'

/-- A text that the reading of a line keeps as one token. -/
def IsToken (t : Text) : Prop := t ≠ [] ∧ t.all plainChar = true

namespace IsToken

variable {t : Text} {c : Char}

theorem plain (h : IsToken t) (hc : c ∈ t) : plainChar c = true := List.all_eq_true.mp h.2 c hc

theorem not_separator (h : IsToken t) (hc : c ∈ t) : (c.isWhitespace || c == ',') = false := by
  have hp := h.plain hc
  simp only [plainChar, Bool.and_eq_true, Bool.not_eq_true'] at hp
  tauto

theorem not_isWhitespace (h : IsToken t) (hc : c ∈ t) : c.isWhitespace = false :=
  (Bool.or_eq_false_iff.mp (h.not_separator hc)).1

theorem normalize_eq (h : IsToken t) : normalize t = t := by
  have hfilter : t.filter (fun c => c != '[' && c != ']') = t := by
    refine List.filter_eq_self.mpr fun c hc => ?_
    have hp := h.plain hc
    simp only [plainChar, Bool.and_eq_true] at hp ⊢
    tauto
  have hupper : upper t = t := by
    refine (List.map_congr_left fun c hc => ?_).trans (List.map_id t)
    have hp := h.plain hc
    simp only [plainChar, Bool.and_eq_true, beq_iff_eq] at hp
    tauto
  rw [normalize, hfilter, hupper]

theorem semicolon_not_mem (h : IsToken t) : ';' ∉ t := fun hc => absurd (h.plain hc) (by decide)

theorem colon_not_mem (h : IsToken t) : ':' ∉ t := fun hc => absurd (h.plain hc) (by decide)

end IsToken

theorem isToken_opText (o : Op) : IsToken (opText o) := by
  cases o <;> exact ⟨by decide, rfl⟩

theorem isToken_regText (r : Reg) : IsToken (regText r) := by
  cases r <;> exact ⟨by decide, rfl⟩

theorem plainChar_hexChar : ∀ n < 16, plainChar (hexChar n) = true := by decide

theorem isToken_hexByte (v : Byte) : IsToken (hexByte v) := by
  have h1 : v.toNat / 16 < 16 := by omega
  have h2 : v.toNat % 16 < 16 := by omega
  exact ⟨List.cons_ne_nil _ _, by simp [hexByte, plainChar_hexChar _ h1, plainChar_hexChar _ h2]⟩

/-! ## Names and numbers are read back (R74, R81, R84) -/

theorem opOfText_opText (o : Op) : opOfText (opText o) = some o := by
  cases o <;> rfl

theorem regOfText_regText (r : Reg) : regOfText (regText r) = some r := by
  cases r <;> rfl

theorem hexDigit_hexChar : ∀ n < 16, hexDigit (hexChar n) = some n := by decide

theorem hexLiteral_hexByte (v : Byte) : hexLiteral (hexByte v) = some v := by
  have h1 : v.toNat / 16 < 16 := by omega
  have h2 : v.toNat % 16 < 16 := by omega
  simp [hexLiteral, hexByte, hexValueFrom, hexDigit_hexChar _ h1, hexDigit_hexChar _ h2, Nat.div_add_mod]

theorem targetOf_hexByte (v : Byte) : targetOf [] (hexByte v) = some v := hexLiteral_hexByte v

/-! ## Splitting a line into tokens (R80) -/

theorem splitText_eq_singleton {sep : Char → Bool} {t : Text} (h : ∀ c ∈ t, sep c = false) :
    splitText sep t = [t] := by
  induction t with
  | nil => rfl
  | cons c t ih =>
    obtain ⟨hc, ht⟩ := List.forall_mem_cons.mp h
    simp [splitText, hc, ih ht]

theorem splitText_append_cons {sep : Char → Bool} {t : Text} (h : ∀ c ∈ t, sep c = false) {c : Char}
    (hc : sep c = true) (rest : Text) : splitText sep (t ++ c :: rest) = t :: splitText sep rest := by
  induction t with
  | nil => simp [splitText, hc]
  | cons x t ih =>
    obtain ⟨hx, ht⟩ := List.forall_mem_cons.mp h
    simp [splitText, hx, ih ht]

theorem tokens_of_isToken {t : Text} (h : IsToken t) : tokens t = [t] := by
  rw [tokens_eq, h.normalize_eq, splitText_eq_singleton fun _ => h.not_separator]
  simp [h.1]

/-- A token ends at a separator. -/
theorem tokens_append_separator {t : Text} (h : IsToken t) {c : Char} (hc : c = ' ' ∨ c = ',') (rest : Text) :
    tokens (t ++ c :: rest) = t :: tokens rest := by
  have hsep : (c.isWhitespace || c == ',') = true := by rcases hc with rfl | rfl <;> rfl
  rw [tokens_eq, normalize_append, h.normalize_eq, normalize_separator hc,
    splitText_append_cons (fun _ => h.not_separator) hsep, List.filter_cons_of_pos (by simp [h.1]), ← tokens_eq]

/-- A space before a token is no token. -/
theorem tokens_space (rest : Text) : tokens (' ' :: rest) = tokens rest := by
  rw [tokens_eq, tokens_eq, normalize_separator (.inl rfl)]
  rfl

/-- Brackets are removed before the line is split. -/
theorem tokens_bracket (t : Text) {c : Char} (hc : c = '[' ∨ c = ']') (rest : Text) :
    tokens (t ++ c :: rest) = tokens (t ++ rest) := by
  simp only [tokens_eq, normalize_append, normalize_bracket hc]

/-- The two operands of class RR, in each of its three forms, are the two register names (R88). -/
theorem tokens_pairText (o : Op) (d s : Reg) : tokens (pairText o d s) = [regText d, regText s] := by
  have hpair : tokens (regText d ++ ',' :: ' ' :: regText s) = [regText d, regText s] := by
    rw [tokens_append_separator (isToken_regText d) (.inr rfl), tokens_space, tokens_of_isToken (isToken_regText s)]
  unfold pairText
  split
  · calc tokens (regText d ++ ", [".toList ++ regText s ++ "]".toList)
        = tokens ((regText d ++ [',', ' ']) ++ '[' :: (regText s ++ [']'])) := by simp
      _ = tokens ((regText d ++ ',' :: ' ' :: regText s) ++ ']' :: []) := by
          rw [tokens_bracket _ (.inl rfl)]
          simp
      _ = [regText d, regText s] := by rw [tokens_bracket _ (.inr rfl), List.append_nil, hpair]
  · calc tokens ("[".toList ++ regText d ++ "], ".toList ++ regText s)
        = tokens ([] ++ '[' :: (regText d ++ ']' :: ',' :: ' ' :: regText s)) := by simp
      _ = [regText d, regText s] := by
          rw [tokens_bracket [] (.inl rfl), List.nil_append, tokens_bracket _ (.inr rfl), hpair]
  · simpa using hpair

/-! ## Instruction lines (R78) -/

/-- A text that a line can end with: it holds no comment, and its last character is neither white space, which would be
trimmed, nor the colon of a label. -/
def EndsLine (t : Text) : Prop :=
  ';' ∉ t ∧ ∃ init z, t = init ++ [z] ∧ z.isWhitespace = false ∧ z ≠ ':'

theorem EndsLine.append {a b : Text} (ha : ';' ∉ a) (hb : EndsLine b) : EndsLine (a ++ b) := by
  obtain ⟨hsemi, init, z, rfl, hz⟩ := hb
  exact ⟨by simpa [ha] using hsemi, a ++ init, z, by simp, hz⟩

theorem IsToken.endsLine {t : Text} (h : IsToken t) : EndsLine t := by
  have hz := List.getLast_mem h.1
  exact ⟨h.semicolon_not_mem, t.dropLast, t.getLast h.1, (List.dropLast_append_getLast h.1).symm,
    h.not_isWhitespace hz, fun hcolon => h.colon_not_mem (hcolon ▸ hz)⟩

theorem endsLine_pairText (o : Op) (d s : Reg) : EndsLine (pairText o d s) := by
  have hd := (isToken_regText d).semicolon_not_mem
  have hs := (isToken_regText s).semicolon_not_mem
  unfold pairText
  split
  · exact .append (by simp [hd, hs]) ⟨by decide, [], ']', rfl, rfl, by decide⟩
  · exact .append (by simp [hd]) (isToken_regText s).endsLine
  · exact .append (by simp [hd]) (isToken_regText s).endsLine

theorem stripComment_eq_self {t : Text} (h : ';' ∉ t) : stripComment t = t := by
  refine List.takeWhile_eq_self_iff.mpr fun c hc => ?_
  simpa using fun he : c = ';' => h (he ▸ hc)

theorem trim_eq_self {c z : Char} {r init : Text} (hc : c.isWhitespace = false) (hz : z.isWhitespace = false)
    (h : c :: r = init ++ [z]) : trim (c :: r) = c :: r := by
  rw [trim, List.dropWhile_cons_of_neg (by simp [hc]), h, List.reverse_append, List.reverse_singleton,
    List.singleton_append, List.dropWhile_cons_of_neg (by simp [hz])]
  simp

theorem readLine_of_trimmed {t : Text} (hne : t ≠ []) (hsemi : ';' ∉ t) (htrim : trim t = t)
    (hlast : t.getLast? ≠ some ':') : readLine t = .instruction (tokens t) := by
  simp [readLine, stripComment_eq_self hsemi, htrim, hne, hlast]

/-- A line that begins with a token is an instruction line. -/
theorem readLine_eq_instruction {m rest : Text} (hm : IsToken m) (h : EndsLine (m ++ rest)) :
    readLine (m ++ rest) = .instruction (tokens (m ++ rest)) := by
  obtain ⟨hsemi, init, z, hz, hzspace, hzcolon⟩ := h
  obtain ⟨c, r, rfl⟩ := List.exists_cons_of_ne_nil hm.1
  have htrim : trim (c :: r ++ rest) = c :: r ++ rest :=
    trim_eq_self (hm.not_isWhitespace List.mem_cons_self) hzspace hz
  have hlast : (c :: r ++ rest).getLast? ≠ some ':' := by
    rw [hz, List.getLast?_append, List.getLast?_singleton]
    simpa using hzcolon
  exact readLine_of_trimmed (List.cons_ne_nil _ _) hsemi htrim hlast

/-! ## The three forms of the disassembler's lines (R88) -/

theorem readLine_opText (o : Op) : readLine (opText o) = .instruction [opText o] := by
  have hm := isToken_opText o
  have h := readLine_eq_instruction (rest := []) hm (by rw [List.append_nil]; exact hm.endsLine)
  rwa [List.append_nil, tokens_of_isToken hm] at h

theorem readLine_opText_operands (o : Op) {operands : Text} (h : EndsLine operands) :
    readLine (opText o ++ [' '] ++ operands) = .instruction (opText o :: tokens operands) := by
  have hm := isToken_opText o
  have hends : EndsLine (opText o ++ ' ' :: operands) :=
    .append hm.semicolon_not_mem (.append (a := [' ']) (by decide) h)
  rw [List.append_assoc, List.singleton_append, readLine_eq_instruction hm hends,
    tokens_append_separator hm (.inl rfl)]

theorem readLine_opText_token (o : Op) {a : Text} (ha : IsToken a) :
    readLine (opText o ++ [' '] ++ a) = .instruction [opText o, a] := by
  rw [readLine_opText_operands o ha.endsLine, tokens_of_isToken ha]

theorem readLine_opText_pair (o : Op) (d s : Reg) :
    readLine (opText o ++ [' '] ++ pairText o d s) = .instruction [opText o, regText d, regText s] := by
  rw [readLine_opText_operands o (endsLine_pairText o d s), tokens_pairText]

/-- The disassembler's line of a canonical word is read as tokens that spell the word's instruction. -/
theorem disassemble_spells {p : Params} {w : Word} {o : Op} (hop : (decodeFields p w).op = some o)
    (hc : classCanonical p w o.opClass = true) :
    ∃ operands, readLine (disassemble p w) = .instruction (opText o :: operands) ∧
      instrOfTokens [] o operands =
        some (instrOf o (keyOf p (destField w)) (keyOf p (srcField w)) (dataField w)) := by
  have hdest : (decodeFields p w).dest = keyOf p (destField w) := rfl
  have hsrc : (decodeFields p w).src = keyOf p (srcField w) := rfl
  have hdata : (decodeFields p w).data = dataField w := rfl
  cases hclass : o.opClass with
  | rr =>
    simp only [hclass, classCanonical, Bool.and_eq_true, isResolved_iff] at hc
    obtain ⟨⟨d, hd⟩, s, hs⟩ := hc
    have hline : disassemble p w = opText o ++ [' '] ++ pairText o d s := by
      simp [disassemble, hop, hclass, hdest, hsrc, hd, hs]
    refine ⟨[regText d, regText s], by rw [hline, readLine_opText_pair], ?_⟩
    simp only [instrOfTokens, hclass, regOfText_regText, hd, hs, Option.some.injEq]
    exact instrOf_congr (fun _ => rfl) (fun _ => rfl) (by simp [hclass])
  | r1 =>
    simp only [hclass, classCanonical, Bool.and_eq_true, isResolved_iff] at hc
    obtain ⟨⟨d, hd⟩, -⟩ := hc
    have hline : disassemble p w = opText o ++ [' '] ++ regText d := by
      simp [disassemble, hop, hclass, hdest, hd]
    refine ⟨[regText d], by rw [hline, readLine_opText_token o (isToken_regText d)], ?_⟩
    simp only [instrOfTokens, hclass, regOfText_regText, hd, Option.some.injEq]
    exact instrOf_congr (fun _ => rfl) (by simp [hclass]) (by simp [hclass])
  | imm | addr =>
    have hline : disassemble p w = opText o ++ [' '] ++ hexByte (dataField w) := by
      simp [disassemble, hop, hclass, hdata]
    refine ⟨[hexByte (dataField w)], by rw [hline, readLine_opText_token o (isToken_hexByte _)], ?_⟩
    simp only [instrOfTokens, hclass, hexLiteral_hexByte, targetOf_hexByte, Option.map_some, Option.some.injEq]
    exact instrOf_congr (by simp [hclass]) (by simp [hclass]) (fun _ => rfl)
  | noOperand =>
    have hline : disassemble p w = opText o := by
      simp [disassemble, hop, hclass]
    refine ⟨[], by rw [hline, readLine_opText], ?_⟩
    simp only [instrOfTokens, hclass, Option.some.injEq]
    exact instrOf_congr (by simp [hclass]) (by simp [hclass]) (by simp [hclass])

/-! ## What assembly answers (R81 to R86, R120) -/

theorem assembleLine_of_spells {p : Params} {labels : LabelTable} {o : Op} {operands : List Text} {i : Instr} {w : Word}
    (hi : instrOfTokens labels o operands = some i) (he : encode p i = some w) :
    assembleLine p labels (opText o :: operands) = .ok w := by
  simp [assembleLine, opOfText_opText, hi, he]

theorem assembleLines_singleton {p : Params} {t : Text} {toks : List Text} {w : Word}
    (ht : readLine t = .instruction toks) (hw : assembleLine p [] toks = .ok w) : assembleLines p [t] = .ok [w] := by
  simp [assembleLines, pass1, ht, pass2, hw]

/-- Every word that pass 2 writes for a line is the encoding of an instruction. -/
theorem encode_of_assembleLine {p : Params} {labels : LabelTable} {toks : List Text} {w : Word}
    (h : assembleLine p labels toks = .ok w) : ∃ i, encode p i = some w := by
  unfold assembleLine at h
  split at h
  · cases h
  · split at h
    · cases h
    · split at h
      · rename_i w' hw
        cases h
        obtain ⟨i, -, hi⟩ := Option.bind_eq_some_iff.mp hw
        exact ⟨i, hi⟩
      · cases h

theorem pass2_cons_eq_ok {p : Params} {labels : LabelTable} {c : CodeLine} {code : List CodeLine} {ws : List Word}
    (h : pass2 p labels (c :: code) = .ok ws) :
    ∃ w ws', assembleLine p labels c.2 = .ok w ∧ pass2 p labels code = .ok ws' ∧ ws = w :: ws' := by
  unfold pass2 at h
  split at h
  · cases h
  · rename_i w hw
    split at h
    · rename_i ws' hws'
      cases h
      exact ⟨w, ws', hw, hws', rfl⟩
    · cases h

/-- Pass 2 writes one word for each instruction line, each the encoding of an instruction. -/
theorem pass2_eq_ok {p : Params} {labels : LabelTable} {code : List CodeLine} {ws : List Word}
    (h : pass2 p labels code = .ok ws) : ws.length = code.length ∧ ∀ w ∈ ws, ∃ i, encode p i = some w := by
  induction code generalizing ws with
  | nil =>
    cases h
    simp
  | cons c code ih =>
    obtain ⟨w, ws', hw, hws', rfl⟩ := pass2_cons_eq_ok h
    obtain ⟨hlen, hall⟩ := ih hws'
    exact ⟨by simp [hlen], List.forall_mem_cons.mpr ⟨encode_of_assembleLine hw, hall⟩⟩

theorem assembleLines_eq_ok {p : Params} {lines : List Text} {ws : List Word} (h : assembleLines p lines = .ok ws) :
    ∃ labels code, code.length ≤ 256 ∧ pass2 p labels code = .ok ws := by
  unfold assembleLines at h
  split at h
  · cases h
  · split at h
    · cases h
    · rename_i labels code _ _ hcode
      exact ⟨labels, code, List.getElem?_eq_none_iff.mp hcode, h⟩

theorem hexLoadLines_length_le {lines : List Text} {ws : List Word} (h : hexLoadLines lines = .ok ws) :
    ws.length ≤ 256 := by
  unfold hexLoadLines at h
  split at h
  · cases h
  · split at h
    · cases h
    · rename_i numbered _ hlen
      cases h
      rw [List.length_map]
      exact List.getElem?_eq_none_iff.mp hlen

/-! ## The statements -/

/-- Settles O51: the line is read as tokens that spell the word's instruction, and a canonical word is that
instruction's encoding. -/
theorem assembleOfDisassembleIsTheWord : Obligations.AssembleOfDisassembleIsTheWord := by
  intro p w _ hcanonical
  obtain ⟨hhigh, o, ho, hc⟩ := canonical_iff.mp hcanonical
  have hop : (decodeFields p w).op = some o := by
    simp [decodeFields, highBitsReject_eq_false.mpr (.inr hhigh), ho]
  obtain ⟨operands, hline, hspell⟩ := disassemble_spells hop hc
  have hencode := (encode_instrOf_fields ho).mpr ⟨hhigh, hc⟩
  exact assembleLines_singleton hline (assembleLine_of_spells hspell hencode)

/-- Settles O52: the 257th instruction line is an error, and every encoding is canonical. -/
theorem assemblyGivesAtMost256CanonicalWords : Obligations.AssemblyGivesAtMost256CanonicalWords := by
  intro p lines ws hp h
  obtain ⟨labels, code, hcode, hpass⟩ := assembleLines_eq_ok h
  obtain ⟨hlen, hall⟩ := pass2_eq_ok hpass
  refine ⟨hlen.trans_le hcode, fun w hw => ?_⟩
  obtain ⟨i, hi⟩ := hall w hw
  exact canonical_of_encode hp hi

/-- Settles O53. -/
theorem hexLoadGivesAtMost256Words : Obligations.HexLoadGivesAtMost256Words :=
  fun _ _ => hexLoadLines_length_le

end Sys2Proof.Machine
end

section
/-! The ALU: its results as arithmetic on natural numbers, what an ALU instruction with resolved operands leaves, and
the statements about the ten instructions of the family. -/

namespace Sys2Proof.Machine

/-! ## The datapath as arithmetic modulo 256 (R91) -/

theorem alu_add (a b : Byte) : alu .add a b = BitVec.ofNat 8 ((a.toNat + b.toNat) % 256) := by
  simp only [alu]
  bv_omega

/-- SUB's operand order is the second operand taken from the first (D11). -/
theorem alu_sub (a b : Byte) : alu .sub a b = BitVec.ofNat 8 ((a.toNat + 256 - b.toNat) % 256) := by
  simp only [alu]
  bv_omega

theorem alu_inc (a b : Byte) : alu .inc a b = BitVec.ofNat 8 ((a.toNat + 1) % 256) := by
  simp only [alu]
  bv_omega

theorem alu_dec (a b : Byte) : alu .dec a b = BitVec.ofNat 8 ((a.toNat + 255) % 256) := by
  simp only [alu]
  bv_omega

/-- CPL is the one's complement (D12). -/
theorem alu_cpl (a b : Byte) : alu .cpl a b = BitVec.ofNat 8 (255 - a.toNat) := by
  simp only [alu]
  bv_omega

/-- A zero enters at bit 7 (D13). -/
theorem alu_rr (a b : Byte) : alu .rr a b = BitVec.ofNat 8 (a.toNat / 2) := by
  simp only [alu]
  bv_omega

/-- A zero enters at bit 0 (D13). -/
theorem alu_rl (a b : Byte) : alu .rl a b = BitVec.ofNat 8 (2 * a.toNat % 256) := by
  simp only [alu]
  bv_omega

/-- Shifting left by one doubles (R102). -/
theorem alu_rl_eq_alu_add_self (a b : Byte) : alu .rl a b = alu .add a a := by
  rw [alu_rl, alu_add, Nat.two_mul]

theorem alu_cpl_alu_cpl (a b c : Byte) : alu .cpl (alu .cpl a b) c = a := BitVec.not_not

theorem alu_sub_self (a : Byte) : alu .sub a a = 0x00 := BitVec.sub_self a

theorem alu_xor_self (a : Byte) : alu .xor a a = 0x00 := BitVec.xor_self

/-! ## What an ALU instruction leaves (R92) -/

theorem aluWriteBack_aluOutcome (s : State) (d : Reg) (r : Byte) : AluOutcome s (aluWriteBack s d r) d r :=
  ⟨aluWriteBack_wroteOnly s d r, aluWriteBack_z s d r,
    State.memRead_congr (aluWriteBack_mem s d r) (aluWriteBack_params s d r),
    ⟨aluWriteBack_prog s d r, aluWriteBack_len s d r, aluWriteBack_params s d r⟩,
    aluWriteBack_swInputs s d r, aluWriteBack_swCount s d r⟩

theorem aluPair_aluOutcome {op : AluOp} {s : State} {d e : Reg} {r : Byte}
    (h : alu op (s.operand d) (s.operand e) = r) :
    ∃ t, aluPair op (.resolved d) (.resolved e) s = .next t ∧ AluOutcome s t d r :=
  ⟨_, rfl, h ▸ aluWriteBack_aluOutcome s d _⟩

theorem aluSingle_aluOutcome {op : AluOp} {s : State} {d : Reg} {r : Byte} (h : alu op (s.operand d) 0x00 = r) :
    ∃ t, aluSingle op (.resolved d) s = .next t ∧ AluOutcome s t d r :=
  ⟨_, rfl, h ▸ aluWriteBack_aluOutcome s d _⟩

/-- The register written and the flag, where the result is 0x00 (R24). -/
theorem reg_and_z_of_aluOutcome_zero {s t : State} {d : Reg} (h : AluOutcome s t d 0x00) :
    t.reg d = 0x00 ∧ t.z = true := by
  obtain ⟨hwrote, hz, -⟩ := h
  exact ⟨reg_of_wroteOnly hwrote, hz⟩

/-- Of two writes of one register the second stays (R22). -/
theorem reg_of_wroteOnly_twice {s t u : State} {d : Reg} {v w : Byte} (h : WroteOnly s t d v) (h' : WroteOnly t u d w)
    {r : Reg} (hr : r ≠ .pc) : u.reg r = if r = d then w else s.reg r := by
  obtain ⟨hregs, -⟩ := h
  obtain ⟨hregs', -⟩ := h'
  rw [hregs' r hr, hregs r hr]
  split <;> rfl

/-- CPL of a register but PC writes that register's complement (R97). -/
theorem wroteOnly_of_exec_cpl {s t : State} {d : Reg} (hd : d ≠ .pc) (h : exec (.cpl (.resolved d)) s = .next t) :
    WroteOnly s t d (alu .cpl (s.reg d) 0x00) := by
  cases h
  rw [← s.operand_of_ne_pc hd]
  exact aluWriteBack_wroteOnly s d _

/-! ## The statements -/

/-- Settles O6: the logic operations' results are the datapath's as they stand, the adder's by its arithmetic. -/
theorem twoOperandAluInstructionsGiveTheirResult : Obligations.TwoOperandAluInstructionsGiveTheirResult :=
  fun _ _ _ =>
    ⟨aluPair_aluOutcome (alu_add _ _), aluPair_aluOutcome (alu_sub _ _), aluPair_aluOutcome (op := .and) rfl,
      aluPair_aluOutcome (op := .or) rfl, aluPair_aluOutcome (op := .xor) rfl⟩

/-- Settles O7, by the arithmetic of each operation. -/
theorem oneOperandAluInstructionsGiveTheirResult : Obligations.OneOperandAluInstructionsGiveTheirResult :=
  fun _ _ =>
    ⟨aluSingle_aluOutcome (alu_inc _ _), aluSingle_aluOutcome (alu_dec _ _), aluSingle_aluOutcome (alu_cpl _ _),
      aluSingle_aluOutcome (alu_rr _ _), aluSingle_aluOutcome (alu_rl _ _)⟩

/-- Settles O8: both instructions write back the same result. -/
theorem rlIsAddOfTheRegisterToItself : Obligations.RlIsAddOfTheRegisterToItself := fun s d =>
  congrArg (fun r => Host.Outcome.next (aluWriteBack s d r)) (alu_rl_eq_alu_add_self (s.operand d) 0x00)

/-- Settles O9: the second CPL complements what the first one wrote. -/
theorem cplTwiceRestoresTheRegister : Obligations.CplTwiceRestoresTheRegister := by
  intro s t u d hd hst htu r hr
  have hfirst := wroteOnly_of_exec_cpl hd hst
  have hsecond := wroteOnly_of_exec_cpl hd htu
  rw [reg_of_wroteOnly hfirst, alu_cpl_alu_cpl] at hsecond
  rw [reg_of_wroteOnly_twice hfirst hsecond hr]
  split
  · next hrd => rw [hrd]
  · rfl

/-- Settles O10: both results are 0x00 whatever the operand is. -/
theorem subAndXorOfARegisterWithItselfGiveZero : Obligations.SubAndXorOfARegisterWithItselfGiveZero := by
  intro s d
  obtain ⟨t, hsub, ht⟩ := aluPair_aluOutcome (s := s) (d := d) (alu_sub_self _)
  obtain ⟨u, hxor, hu⟩ := aluPair_aluOutcome (s := s) (d := d) (alu_xor_self _)
  exact ⟨⟨t, hsub, reg_and_z_of_aluOutcome_zero ht⟩, u, hxor, reg_and_z_of_aluOutcome_zero hu⟩

end Sys2Proof.Machine
end

section
/-! MOV and SET: a Step that writes one register leaves the rest of the machine alone, and the statements about the two
register moves. -/

namespace Sys2Proof.Machine

/-! ## The frame of a Step that writes one register (R22) -/

theorem writeRegStep_sameSwitches (s : State) (d : Reg) (v : Byte) : SameSwitches s (writeRegStep s d v) :=
  ⟨writeRegStep_swInputs s d v, writeRegStep_swCount s d v⟩

theorem writeRegStep_sameRest (s : State) (d : Reg) (v : Byte) : SameRest s (writeRegStep s d v) :=
  ⟨writeRegStep_sameMemory s d v, writeRegStep_sameProgram s d v, writeRegStep_sameSwitches s d v⟩

/-! ## The two moves (R103, R104) -/

theorem exec_mov_resolved (s : State) (d e : Reg) :
    exec (.mov (.resolved d) (.resolved e)) s = .next (writeRegStep s d (s.operand e)) := rfl

theorem exec_set (s : State) (v : Byte) : exec (.set v) s = .next (writeRegStep s .ac v) := rfl

/-- SET's data byte is the immediate itself (R65). -/
theorem encode_set (p : Params) (v : Byte) : encode p (.set v) = some (packWord 0x1D v) := rfl

/-- A word with SET's opcode is SET of its data byte, whatever registers its nibbles name (R104). -/
theorem decode_set {p : Params} (h : p.wellFormed) {w : Word} (hopcode : opcodeField w = 0x1D)
    (hhigh : p.highBits = .ignore ∨ highField w = 0#3) : decode p w = .ok (.set (dataField w)) :=
  decode_of_opcodeField h hhigh (o := .set) hopcode

/-! ## The statements -/

/-- Settles O12: MOV is the Step that writes the source operand's value to d. -/
theorem movCopiesTheSource : Obligations.MovCopiesTheSource := fun s d e =>
  ⟨_, exec_mov_resolved s d e, writeRegStep_wroteOnly s d _, writeRegStep_z s d _, writeRegStep_sameRest s d _⟩

/-- Settles O13: SET is the Step that writes its data byte to AC. -/
theorem setLoadsTheImmediateIntoAc : Obligations.SetLoadsTheImmediateIntoAc := by
  refine ⟨fun s v => ?_, encode_set, fun _ _ h hopcode hhigh => decode_set h hopcode hhigh⟩
  have hwrote : WroteOnly s (writeRegStep s .ac v) .ac v := writeRegStep_wroteOnly s .ac v
  have hac : (writeRegStep s .ac v).reg .ac = v := reg_of_wroteOnly hwrote
  obtain ⟨hregs, -⟩ := hwrote
  exact ⟨_, exec_set s v, hac, hregs, writeRegStep_z s .ac v, writeRegStep_sameRest s .ac v⟩

end Sys2Proof.Machine
end

section
/-! Control transfer: what a Step that writes only the counter leaves, the four instructions JMP, JZ, CALL and RET as
such Steps, and the statements about them. -/

namespace Sys2Proof.Machine

/-! ## A Step that writes only the counter (R30) -/

theorem jumpStep_jumped (s : State) (v : Byte) : Jumped s (jumpStep s v) v := ⟨rfl, rfl⟩

theorem jumpStep_sameRegisters (s : State) (v : Byte) : SameRegisters s (jumpStep s v) := fun r hr => by
  have hset : (jumpStep s v).reg r = if r = .pc then v else s.reg r := s.setReg_reg .pc r v
  rw [hset, if_neg hr]

@[simp] theorem jumpStep_z (s : State) (v : Byte) : (jumpStep s v).z = s.z := rfl

theorem jumpStep_sameRest (s : State) (v : Byte) : SameRest s (jumpStep s v) :=
  ⟨fun _ => rfl, ⟨rfl, rfl, rfl⟩, rfl, rfl⟩

/-- A target at or beyond L halts (R31, R105). -/
theorem jumpStep_halted {s : State} {v : Byte} (h : s.len.val ≤ v.toNat) : (jumpStep s v).halted = true :=
  (jumpStep s v).halted_iff.mpr (.inl h)

theorem jumpStep_self (s : State) : jumpStep s s.pc = s := rfl

/-! ## The four instructions by what they read (R106 to R109) -/

theorem exec_jmp (s : State) (a : Byte) : exec (.jmp a) s = .next (jumpStep s a) := rfl

theorem exec_jz (s : State) (a : Byte) : exec (.jz a) s = .next (if s.z then jumpStep s a else noOp s) := by
  cases hz : s.z <;> simp [exec, execJz, hz]

theorem exec_call (s : State) (a : Byte) :
    exec (.call a) s = .next (jumpStep (s.setReg .sp (s.pc + 1)) a) := rfl

theorem exec_ret (s : State) : exec .ret s = .next (jumpStep s s.sp) := rfl

theorem exec_jz_of_z {s : State} (hz : s.z = true) (a : Byte) : exec (.jz a) s = .next (jumpStep s a) := by
  rw [exec_jz, if_pos hz]

theorem exec_jz_of_not_z {s : State} (hz : s.z = false) (a : Byte) : exec (.jz a) s = .next (noOp s) := by
  simp [exec_jz, hz]

theorem sp_and_pc_of_exec_call {s t : State} {a : Byte} (h : exec (.call a) s = .next t) :
    t.sp = s.pc + 1 ∧ t.pc = a := by
  cases h
  exact ⟨rfl, rfl⟩

theorem sp_and_pc_of_exec_ret {s t : State} (h : exec .ret s = .next t) : t.sp = s.sp ∧ t.pc = s.sp := by
  cases h
  exact ⟨rfl, rfl⟩

/-! ## Runs -/

/-- A Step that leaves the state as it is leaves it so any number of times. -/
theorem run_of_step_eq_self {M : Host.Core} {s : M.State} (h : M.step s = .next s) (n : Nat) :
    M.run n s = .next s := by
  induction n with
  | zero => rfl
  | succ n ih =>
    rw [Host.Core.run, h]
    exact ih

/-- Every instruction completes in every state: it is related to itself by the relation of states with one program
store. -/
theorem exec_completes (i : Instr) (s : State) : ∃ t, exec i s = .next t := by
  obtain ⟨t, -, h, -⟩ := (withProgram_keptByWrites s.prog).exec_related (s := s) rfl (readAlike_withProgram i s s.prog)
  exact ⟨t, h⟩

/-- Outside the ALU class Z stays (R24). -/
theorem exec_z_of_not_isAlu {i : Instr} {s t : State} (hi : i.op.isAlu = false) (h : exec i s = .next t) :
    t.z = s.z :=
  exec_z_of_aluDest_eq_none (by simpa [hi] using aluDest_isSome i) h

/-- Instructions outside the ALU class complete one after another and leave Z as it was before them (R24). -/
theorem execAll_z_of_not_isAlu {instrs : List Instr} (hi : ∀ i ∈ instrs, i.op.isAlu = false) (s : State) :
    ∃ t, execAll instrs s = .next t ∧ t.z = s.z := by
  induction instrs generalizing s with
  | nil => exact ⟨s, rfl, rfl⟩
  | cons i rest ih =>
    obtain ⟨hhead, hrest⟩ := List.forall_mem_cons.mp hi
    obtain ⟨u, hu⟩ := exec_completes i s
    obtain ⟨t, ht, hz⟩ := ih hrest u
    exact ⟨t, by rw [execAll, hu]; exact ht, hz.trans (exec_z_of_not_isAlu hhead hu)⟩

/-! ## Where the advance is a jump to the next address (R29) -/

/-- Only the advance from 0xFF under `PC_OVERFLOW = halt` sets `ovf` (R29, R33). -/
theorem ovfAfterAdvance_eq_ovf {s : State} (h : s.params.pcOverflow = .wrap ∨ s.pc ≠ 0xFF) :
    s.ovfAfterAdvance = s.ovf := by
  rcases h with hwrap | hpc
  · simp [State.ovfAfterAdvance, hwrap]
  · have hne : (s.pc == 0xFF) = false := beq_eq_false_iff_ne.mpr hpc
    rw [State.ovfAfterAdvance, hne, Bool.and_false, Bool.or_false]

theorem noOp_eq_jumpStep {s : State} (h : s.params.pcOverflow = .wrap ∨ s.pc ≠ 0xFF) :
    noOp s = jumpStep s (s.pc + 1) := by
  rw [noOp_eq_advance, State.advance, ovfAfterAdvance_eq_ovf h, jumpStep_eq]

/-! ## The statements -/

/-- Settles O14: JMP is the Step that writes only the counter, and to its own address it writes what the counter
holds. -/
theorem jmpSetsTheCounter : Obligations.JmpSetsTheCounter := by
  refine ⟨fun s a => ?_, fun s n hrun hself => ?_, fun _ _ => rfl,
    fun _ _ h hopcode hhigh => decode_of_opcodeField h hhigh (o := .jmp) hopcode⟩
  · exact ⟨_, exec_jmp s a, jumpStep_jumped s a, jumpStep_sameRegisters s a, jumpStep_z s a, jumpStep_sameRest s a,
      jumpStep_halted⟩
  · have hstep : step s = .next s := by rw [step_of_decode_ok hrun hself, exec_jmp, jumpStep_self]
    exact run_of_step_eq_self (M := Sys2Proof.core) hstep n

/-- Settles O15: JZ is JMP or the no-op Step by Z, which the instructions outside the ALU class keep and a reset
clears; short of the overflow the no-op Step is the jump to the next address. -/
theorem jzIsTakenExactlyWhenZIsOne : Obligations.JzIsTakenExactlyWhenZIsOne := by
  refine ⟨fun s a => ?_, fun s instrs a hi => ?_, fun s a => ?_, fun s hovf => ?_, fun _ _ => rfl,
    fun _ _ h hopcode hhigh => decode_of_opcodeField h hhigh (o := .jz) hopcode⟩
  · cases hz : s.z with
    | true =>
      exact ⟨_, exec_jz_of_z hz a, fun _ => jumpStep_jumped s a, fun h => absurd h (by decide),
        jumpStep_sameRegisters s a, hz, jumpStep_sameRest s a⟩
    | false =>
      obtain ⟨hregs, -, hadvanced, hrest⟩ := noOp_onlyAdvanced s
      exact ⟨_, exec_jz_of_not_z hz a, fun h => absurd h (by decide), fun _ => hadvanced, hregs, hz, hrest⟩
  · obtain ⟨t, ht, hz⟩ := execAll_z_of_not_isAlu hi s
    refine ⟨t, _, ht, hz, exec_jz t a, ?_⟩
    rw [hz]
    split <;> rfl
  · exact ⟨_, exec_jz_of_not_z s.resetOp_z a, rfl⟩
  · have hfall : noOp { s with z := false } = jumpStep { s with z := false } (s.pc + 1) := noOp_eq_jumpStep hovf
    refine ⟨_, exec_jz_of_z rfl _, ?_⟩
    rw [exec_jz_of_not_z rfl, hfall]
    rfl

/-- Settles O16: CALL is the jump of the machine that has the return address in SP. -/
theorem callSavesTheReturnAddressInSp : Obligations.CallSavesTheReturnAddressInSp := by
  refine ⟨fun s a => ?_, fun p h => ⟨fun _ => rfl,
    fun _ hopcode hhigh => decode_of_opcodeField h hhigh (o := .call) hopcode⟩⟩
  refine ⟨_, exec_call s a, jumpStep_jumped _ a, fun r hr => ?_, rfl, jumpStep_sameRest (s.setReg .sp _) a⟩
  rw [jumpStep_sameRegisters _ a r hr, State.setReg_reg]

/-- Settles O17: RET is the jump to SP, which the jump keeps. -/
theorem retSetsTheCounterToSp : Obligations.RetSetsTheCounterToSp := by
  refine ⟨fun s => ?_, fun s => ⟨_, exec_ret s.resetOp, s.resetOp_sp⟩, fun p h => ⟨rfl,
    fun _ hopcode hhigh => decode_of_opcodeField h hhigh (o := .ret) hopcode⟩⟩
  have hagain : exec .ret (jumpStep s s.sp) = .next (jumpStep s s.sp) := exec_ret (jumpStep s s.sp)
  exact ⟨_, exec_ret s, jumpStep_jumped s s.sp, jumpStep_sameRegisters s s.sp, jumpStep_z s s.sp,
    jumpStep_sameRest s s.sp, hagain, jumpStep_halted⟩

/-- Settles O18: RET goes to the SP that the last CALL wrote, and leaves it there for the next RET. -/
theorem nestedCallLosesTheOuterReturnAddress : Obligations.NestedCallLosesTheOuterReturnAddress := by
  constructor
  · intro s t u a hcall hret
    rw [(sp_and_pc_of_exec_ret hret).2, (sp_and_pc_of_exec_call hcall).1]
  · intro s t u v x a b houter hinner hfirst hsecond
    obtain ⟨-, htpc⟩ := sp_and_pc_of_exec_call houter
    obtain ⟨husp, -⟩ := sp_and_pc_of_exec_call hinner
    obtain ⟨hvsp, hvpc⟩ := sp_and_pc_of_exec_ret hfirst
    obtain ⟨-, hxpc⟩ := sp_and_pc_of_exec_ret hsecond
    have hsp : u.sp = a + 1 := by rw [husp, htpc]
    exact ⟨hvpc.trans hsp, hxpc.trans (hvsp.trans hsp)⟩

end Sys2Proof.Machine
end

section
/-! Input and output: which sample an IN takes, IN and OUT as Steps that write one register, and the statements about
them. -/

namespace Sys2Proof.Machine

/-! ## The sample an IN takes (R111) -/

theorem switchSample_of_cons {s : State} {v : Byte} {rest : List Byte} (h : s.swInputs = v :: rest) :
    s.switchSample = v := by
  simp [State.switchSample, h]

theorem switchSample_of_nil {s : State} (h : s.swInputs = []) : s.switchSample = Config.switchSample s.swCount := by
  simp [State.switchSample, h]

theorem dropSample_of_cons {s : State} {v : Byte} {rest : List Byte} (h : s.swInputs = v :: rest) :
    s.dropSample = { s with swInputs := rest } := by
  simp [State.dropSample, h]

theorem dropSample_of_nil {s : State} (h : s.swInputs = []) : s.dropSample = { s with swCount := s.swCount + 1 } := by
  simp [State.dropSample, h]

theorem dropSample_supplySwitches (s : State) (v : Byte) (vs : List Byte) :
    (s.supplySwitches (v :: vs)).dropSample = s.supplySwitches vs := rfl

/-- Taking the sample touches no register and no counter, so a write after it is a write of the state before it. -/
theorem wroteOnly_of_dropSample {s t : State} {d : Reg} {v : Byte} (h : WroteOnly s.dropSample t d v) :
    WroteOnly s t d v := by
  simpa [WroteOnly, RegistersButPc, Jumped, Advanced] using h

/-! ## The two instructions (R113, R114) -/

theorem exec_input (s : State) : exec .input s = .next (writeRegStep s.dropSample .ac s.switchSample) := rfl

theorem exec_output (s : State) : exec .output s = .next (writeRegStep s .rs s.ac) := rfl

theorem encode_input (p : Params) : encode p .input = some 0x1C00 :=
  have hword : packWord 0x1C 0x00 = 0x1C00 := by decide
  congrArg some hword

theorem encode_output (p : Params) : encode p .output = some 0x1B00 :=
  have hword : packWord 0x1B 0x00 = 0x1B00 := by decide
  congrArg some hword

/-- The presented sample is gone after the Step and the host's own samples are back, so all that is left of an IN is
the write to AC (R41, R113). -/
theorem stepWith_of_decode_input {s : State} (sw : Byte) (hrun : s.halted = false)
    (hin : decode s.params s.fetch = .ok .input) : stepWith sw s = .next (writeRegStep s .ac sw) := by
  have hstep : step (s.supplySwitches [sw]) = .next (writeRegStep (s.supplySwitches []) .ac sw) := by
    rw [step_of_decode_ok (s := s.supplySwitches [sw]) hrun hin, exec_input, dropSample_supplySwitches,
      switchSample_of_cons (s.supplySwitches_swInputs [sw])]
  rw [stepWith, hstep]
  rfl

/-! ## The statements -/

/-- Settles O19: IN is the Step that writes AC on the machine whose sample is taken. -/
theorem inWritesTheSampleToAc : Obligations.InWritesTheSampleToAc := by
  intro s
  have hwrote : WroteOnly s.dropSample (writeRegStep s.dropSample .ac s.switchSample) .ac s.switchSample :=
    writeRegStep_wroteOnly _ _ _
  have hac : (writeRegStep s.dropSample .ac s.switchSample).ac = s.switchSample := reg_of_wroteOnly hwrote
  refine ⟨_, exec_input s, wroteOnly_of_dropSample hwrote, by simp, State.memRead_congr (by simp) (by simp),
    exec_sameProgram (exec_input s), fun v rest hlist => ?_, fun hlist => ?_⟩
  · rw [hac, switchSample_of_cons hlist, writeRegStep_swInputs, writeRegStep_swCount, dropSample_of_cons hlist]
    exact ⟨rfl, rfl, rfl⟩
  · rw [hac, switchSample_of_nil hlist, writeRegStep_swInputs, writeRegStep_swCount, dropSample_of_nil hlist]
    exact ⟨rfl, hlist, rfl⟩

/-- Settles O20: the Step with a sample is the Step that writes this sample to AC. -/
theorem stepWithASampleInputsIt : Obligations.StepWithASampleInputsIt := by
  refine ⟨fun s sw hrun hin => ?_, encode_input,
    fun _ _ h hopcode hhigh => decode_of_opcodeField h hhigh (o := .input) hopcode⟩
  obtain ⟨hregs, -⟩ := writeRegStep_wroteOnly s .ac sw
  exact ⟨_, stepWith_of_decode_input sw hrun hin, hregs, writeRegStep_z s .ac sw, writeRegStep_sameRest s .ac sw⟩

/-- Settles O21: OUT is the Step that writes AC's value to RS, which `RS_OUT` presents. -/
theorem outCopiesAcToRs : Obligations.OutCopiesAcToRs := by
  refine ⟨fun s => ?_, encode_output,
    fun _ _ h hopcode hhigh => decode_of_opcodeField h hhigh (o := .output) hopcode⟩
  have hwrote : WroteOnly s (writeRegStep s .rs s.ac) .rs s.ac := writeRegStep_wroteOnly s .rs s.ac
  have hrs : (writeRegStep s .rs s.ac).rsOut = s.ac := reg_of_wroteOnly hwrote
  obtain ⟨hregs, -⟩ := hwrote
  exact ⟨_, exec_output s, hrs, hregs, writeRegStep_z s .rs s.ac, writeRegStep_sameRest s .rs s.ac⟩

end Sys2Proof.Machine
end

section
/-! LOAD and STORE: what STORE's Step leaves of the machine, and the statements about the two memory accesses. -/

namespace Sys2Proof.Machine

/-! ## The memory read by the cell's number (R48, R49) -/

theorem State.memRead_eq_cell {a : Byte} {c : Cell} (hc : c.toNat = a.toNat % 16) (s : State) :
    s.memRead a = s.cell c := by
  rw [State.memRead_eq, (eq_cellOf_iff c a).mpr hc]

/-! ## The Step that writes one byte of memory (R50, R29) -/

/-- The registers see only the advance: the write before it touches none of them. -/
theorem memWrite_advance_sameRegisters (s : State) (a v : Byte) : SameRegisters s (s.memWrite a v).advance :=
  fun r hr => by rw [State.advance_reg _ r hr, State.memWrite_reg]

theorem memWrite_advance_advanced (s : State) (a v : Byte) : Advanced s (s.memWrite a v).advance := ⟨rfl, rfl⟩

theorem memWrite_advance_sameSwitches (s : State) (a v : Byte) : SameSwitches s (s.memWrite a v).advance := ⟨rfl, rfl⟩

/-! ## The statements -/

/-- Settles O24: LOAD is the Step that writes one register, its value read from the index register's cell. -/
theorem loadReadsTheIndexedCell : Obligations.LoadReadsTheIndexedCell := by
  intro s d e c hc
  have hexec : exec (.load (.resolved d) (.resolved e)) s = .next (writeRegStep s d (s.cell c)) := by
    rw [exec_load_resolved, State.memRead_eq_cell hc]
  exact ⟨_, hexec, writeRegStep_wroteOnly s d _, writeRegStep_z s d _, writeRegStep_sameRest s d _⟩

/-- Settles O25: STORE is the memory write followed by the advance, which leaves the memory alone. -/
theorem storeWritesTheIndexedCellOnly : Obligations.StoreWritesTheIndexedCellOnly := by
  intro s d e
  have hexec := exec_store_resolved s d e
  refine ⟨_, hexec, fun b => ?_, memWrite_advance_sameRegisters s _ _, memWrite_advance_advanced s _ _, ?_,
    exec_sameProgram hexec, memWrite_advance_sameSwitches s _ _⟩
  · rw [State.advance_memRead, State.memRead_memWrite_mod]
  · rw [State.advance_z, State.memWrite_z]

end Sys2Proof.Machine
end

section
/-! The absence of exceptions: a Step always answers a next state, halt is the only stop state, and a failed build
installs nothing. -/

namespace Sys2Proof.Machine

/-! ## Every Step completes (R117, R123) -/

/-- The Step's three cases each answer a next state: the same one where the machine is halted, the instruction's, or the
no-op Step's where the word is unrecognized (R31, R41, R75). -/
theorem step_completes (s : State) : ∃ t, step s = .next t := by
  cases hhalted : s.halted with
  | true => exact ⟨s, step_of_halted hhalted⟩
  | false =>
    cases hdecode : decode s.params s.fetch with
    | ok i =>
      rw [step_of_decode_ok hhalted hdecode]
      exact exec_completes i s
    | error r => exact ⟨noOp s, step_of_decode_error hhalted hdecode⟩

/-! ## Installing the result of a build (R119) -/

theorem State.install_of_error {program : Except LoadError (List Word)} {e : LoadError} (h : program = .error e)
    (s : State) : s.install program = (s, some e) := by
  rw [h, State.install]

theorem State.install_of_ok {program : Except LoadError (List Word)} {ws : List Word} (h : program = .ok ws)
    (s : State) : s.install program = (s.load ws, none) := by
  rw [h, State.install]

/-! ## The statements -/

/-- Settles O33: a halted Step is the identity, and so is any number of them. -/
theorem haltedMachineStaysAsItIs : Obligations.HaltedMachineStaysAsItIs :=
  fun _ n h => run_of_step_eq_self (M := Sys2Proof.core) (step_of_halted h) n

/-- Settles O40. -/
theorem everyStepAnswersANextState : Obligations.EveryStepAnswersANextState := step_completes

/-- Settles O54: assembly and hex-load are installed alike, by their outcome alone. -/
theorem failedBuildLeavesTheMachineAsItWas : Obligations.FailedBuildLeavesTheMachineAsItWas :=
  fun s _ => ⟨fun _ h => s.install_of_error h, fun _ h => s.install_of_error h, fun _ h => s.install_of_ok h,
    fun _ h => s.install_of_ok h⟩

end Sys2Proof.Machine
end

section
/-! RESET, program load and run mode: what the host's operations leave and keep, what a run of Steps keeps, and the
statements about the empty program, the full one and the first load. -/

namespace Sys2Proof.Machine

/-! ## Runs and run mode (R138, R140) -/

theorem run_succ_of_step {M : Host.Core} {s t : M.State} (h : M.step s = .next t) (n : Nat) :
    M.run (n + 1) s = M.run n t := by
  rw [Host.Core.run, h]

theorem runMode_of_halted {s : State} (h : s.halted = true) (n : Nat) : runMode n s = .next s := by
  cases n with
  | zero => rfl
  | succ n => rw [runMode, if_pos h]

theorem runMode_succ_of_step {s t : State} (hrun : s.halted = false) (h : step s = .next t) (n : Nat) :
    runMode (n + 1) s = runMode n t := by
  rw [runMode, hrun, h, if_neg Bool.false_ne_true]

theorem sameProgram_trans {s t u : State} (h : SameProgram s t) (h' : SameProgram t u) : SameProgram s u := by
  obtain ⟨hprog, hlen, hparams⟩ := h
  obtain ⟨hprog', hlen', hparams'⟩ := h'
  exact ⟨hprog'.trans hprog, hlen'.trans hlen, hparams'.trans hparams⟩

/-- Any number of Steps completes and leaves the program, its length and the parameters alone (R34, R60). -/
theorem run_sameProgram (s : State) (n : Nat) : ∃ t, Sys2Proof.core.run n s = .next t ∧ SameProgram s t := by
  induction n generalizing s with
  | zero => exact ⟨s, rfl, rfl, rfl, rfl⟩
  | succ n ih =>
    obtain ⟨u, hu⟩ := step_completes s
    obtain ⟨t, ht, hsame⟩ := ih u
    have hrun : Sys2Proof.core.run (n + 1) s = Sys2Proof.core.run n u := run_succ_of_step (M := Sys2Proof.core) hu n
    exact ⟨t, hrun.trans ht, sameProgram_trans (noStepChangesTheProgram s u hu) hsame⟩

/-! ## Programs of length 0 and 256 (R31, R136, R140) -/

theorem State.halted_of_len_eq_zero {s : State} (h : s.len = 0) : s.halted = true :=
  s.halted_iff.mpr (.inl (by simp [h]))

/-- No program address is at or beyond 256, and under `PC_OVERFLOW = wrap` nothing else halts the machine (I13). -/
theorem State.not_halted_of_full_wrap {s : State} (hlen : s.len.val = 256) (hwrap : s.params.pcOverflow = .wrap) :
    s.halted = false := by
  rw [← Bool.not_eq_true, State.halted_iff, hlen, hwrap]
  rintro (hpc | ⟨hhalt, -⟩)
  · exact absurd s.pc.isLt (Nat.not_lt.mpr hpc)
  · cases hhalt

/-! ## What RESET leaves (R132) -/

theorem memInitAt_eq_getElem (p : Params) (c : Cell) : memInitAt p c.toNat = p.memInit[c.toNat]'c.isLt := by
  rw [memInitAt, List.getD_eq_getElem _ _ (by simpa using c.isLt), Vector.getElem_toList]

/-- With no entry in the store, a cell reads as its `MEM_INIT` byte (R37). -/
theorem State.resetOp_cell (s : State) (c : Cell) : s.resetOp.cell c = s.params.memInit[c.toNat]'c.isLt :=
  memInitAt_eq_getElem s.params c

/-! ## What LOAD leaves (R134) -/

theorem State.load_reg_of_ne_pc (s : State) (ws : List Word) {r : Reg} (h : r ≠ .pc) : (s.load ws).reg r = s.reg r := by
  cases r with
  | pc => exact absurd rfl h
  | _ => simp

theorem State.load_sameMemory (s : State) (ws : List Word) : SameMemory s (s.load ws) :=
  State.memRead_congr (s.load_mem ws) (s.load_params ws)

/-- RESET and LOAD commute: what both set, they set alike (the counter and `ovf`), and the rest only one of them sets. -/
theorem State.resetOp_load (s : State) (ws : List Word) : s.resetOp.load ws = (s.load ws).resetOp := by
  by_cases h : ws.length ≤ 256
  · rw [State.load_fits _ ws h, State.load_fits s ws h]
    rfl
  · have hlong : 256 < ws.length := Nat.not_le.mp h
    rw [State.load_too_long _ ws hlong, State.load_too_long s ws hlong]

/-! ## The host's operations keep the well-formed states -/

theorem resetOp_wellFormed {s : State} (h : s.WellFormed) : s.resetOp.WellFormed where
  params := h.params
  mem := sparseWf_nil _ _
  prog := h.prog
  ovf _ := rfl

theorem load_wellFormed {s : State} (h : s.WellFormed) (ws : List Word) : (s.load ws).WellFormed := by
  by_cases hlen : ws.length ≤ 256
  · rw [s.load_fits ws hlen]
    exact { params := h.params, mem := h.mem, prog := progWriteFrom_wf h.prog (by omega), ovf := fun _ => rfl }
  · rw [s.load_too_long ws (Nat.not_le.mp hlen)]
    exact h

theorem supplySwitches_wellFormed {s : State} (h : s.WellFormed) (vs : List Byte) :
    (s.supplySwitches vs).WellFormed where
  params := h.params
  mem := h.mem
  prog := h.prog
  ovf := h.ovf

/-- All that `Step(SW)` can do: a Step of the machine given that sample, with the listed samples put back (R41). -/
theorem stepWith_eq_next {sw : Byte} {s t : State} (h : stepWith sw s = .next t) :
    ∃ u, step (s.supplySwitches [sw]) = .next u ∧ t = u.supplySwitches s.swInputs := by
  obtain ⟨u, hu⟩ := step_completes (s.supplySwitches [sw])
  rw [stepWith, hu] at h
  cases h
  exact ⟨u, hu, rfl⟩

theorem stepWith_wellFormed {sw : Byte} {s t : State} (hs : s.WellFormed) (h : stepWith sw s = .next t) :
    t.WellFormed := by
  obtain ⟨u, hu, rfl⟩ := stepWith_eq_next h
  exact supplySwitches_wellFormed (stepKeepsWellFormedStates _ u (supplySwitches_wellFormed hs [sw]) hu) _

theorem applyOp_wellFormed {op : HostOp} {s t : State} (hs : s.WellFormed) (h : applyOp op s = .next t) :
    t.WellFormed := by
  cases op with
  | reset =>
    cases h
    exact resetOp_wellFormed hs
  | load words =>
    cases h
    exact load_wellFormed hs words
  | supplySwitches samples =>
    cases h
    exact supplySwitches_wellFormed hs samples
  | stepWith sw => exact stepWith_wellFormed hs h
  | step => exact stepKeepsWellFormedStates s t hs h

/-! ## The statements -/

/-- Settles O34: where run mode stops, every further Step is the identity; elsewhere both take the same Step. -/
theorem runModeIsRepeatedSteps : Obligations.RunModeIsRepeatedSteps := by
  intro n s
  induction n generalizing s with
  | zero => rfl
  | succ n ih =>
    cases hhalted : s.halted with
    | true => exact (runMode_of_halted hhalted _).trans (haltedMachineStaysAsItIs s _ hhalted).symm
    | false =>
      obtain ⟨t, ht⟩ := step_completes s
      rw [runMode_succ_of_step hhalted ht, ih t]
      exact (run_succ_of_step (M := Sys2Proof.core) ht n).symm

/-- Settles O36: the length and the parameters, which alone decide it, are the same after any number of Steps. -/
theorem fullProgramNeverHaltsUnderWrap : Obligations.FullProgramNeverHaltsUnderWrap := by
  intro s n hlen hwrap
  obtain ⟨t, hrun, -, hlen', hparams⟩ := run_sameProgram s n
  exact ⟨t, hrun, State.not_halted_of_full_wrap (by rw [hlen', hlen]) (by rw [hparams, hwrap])⟩

/-- Settles O45. -/
theorem hostOperationsKeepWellFormedStates : Obligations.HostOperationsKeepWellFormedStates :=
  fun _ ws vs h => ⟨resetOp_wellFormed h, load_wellFormed h ws, supplySwitches_wellFormed h vs⟩

/-- Settles O46, by induction on how the state is reached. -/
theorem reachableStatesAreWellFormed : Obligations.ReachableStatesAreWellFormed := by
  intro s h
  induction h with
  | afterReset p hp => exact afterReset_wellFormed hp
  | beforeFirstLoad h => exact h.wellFormed
  | operation op _ hop ih => exact applyOp_wellFormed ih hop

/-- Settles O49. -/
theorem loadInstallsTheWholeProgram : Obligations.LoadInstallsTheWholeProgram := by
  refine ⟨fun s ws hlen => ⟨fun i hi => ?_, State.load_len hlen s, State.load_pc hlen s, State.load_ovf hlen s,
    fun r hr => s.load_reg_of_ne_pc ws hr, s.load_z ws, s.load_sameMemory ws,
    ⟨s.load_swInputs ws, s.load_swCount ws⟩, s.load_params ws⟩, State.load_too_long⟩
  have haddr : (BitVec.ofNat 8 i).toNat = i := Nat.mod_eq_of_lt (by omega)
  rw [State.load_progAt hlen s (by rwa [haddr])]
  simp only [haddr]

/-- Settles O35. -/
theorem emptyProgramIsHalted : Obligations.EmptyProgramIsHalted := fun _ hlen =>
  have hhalted := State.halted_of_len_eq_zero hlen
  ⟨hhalted, step_of_halted hhalted⟩

/-- Settles O48. -/
theorem resetRestoresMemoryAndKeepsTheProgram : Obligations.ResetRestoresMemoryAndKeepsTheProgram :=
  fun s => ⟨s.resetOp_cell, s.resetOp_ovf, ⟨s.resetOp_prog, s.resetOp_len, s.resetOp_params⟩,
    ⟨s.resetOp_swInputs, s.resetOp_swCount⟩, rfl⟩

/-- Settles O56: the load is one operation from a reachable state, and what it and a RESET leave is said by their own
rules. -/
theorem firstLoadNeedsNoReset : Obligations.FirstLoadNeedsNoReset := by
  intro s hs
  refine ⟨step_of_halted (State.halted_of_len_eq_zero hs.len), fun w ws hlen => ?_⟩
  have hreachable : (s.load (w :: ws)).Reachable := .operation (.load (w :: ws)) (.beforeFirstLoad hs) rfl
  obtain ⟨-, -, hreset, -⟩ := resetLeavesRegistersAndFlagZero
  obtain ⟨hruns, hfetch⟩ := loadedProgramStartsAtItsFirstWord s w ws hlen
  exact ⟨hreachable, hruns, hfetch, fun r hr => s.load_reg_of_ne_pc _ hr, s.load_z _, s.load_sameMemory _,
    hreset _, State.resetOp_z _, s.resetOp_load _⟩

end Sys2Proof.Machine
end
